-- ==== Sys2Proof/Word.lean ====
section
/-! DEFINITION. The word types of the SRWM raster core: a byte and the 96-bit command word (R8, R12, R70). -/

namespace Sys2Proof

/-- A byte, 8 bits, value 0 to 255 (R12). -/
abbrev Byte := BitVec 8

/-- A command word `cmd[95:0]` (R70). -/
abbrev CommandWord := BitVec 96

end Sys2Proof
end

