-- ==== Sys2Proof/Syntax.lean ====
section
/-! DEFINITION. The instructions: one constructor per row of spec/opcode_table.json (R72, R90), with operands as the
numbers of R74 and R78, and the two shapes in which the rows are encoded. -/

namespace Sys2Proof

/-- A colour: three unsigned 8-bit channels, blue first (R14). -/
structure Colour where
  blue  : Byte
  green : Byte
  red   : Byte
  deriving DecidableEq, Repr

/-- The rows of the table. The first seven are the commands of R72; the last four are the formats of the bytes the core
emits (R79, R80, R82, R85), here the operation of emitting one such element (log 8). -/
inductive Instr where
  /-- `create(width, height)`, opcode 0x01 (R100). -/
  | create (width height : Int)
  /-- `setPixel(x, y, colour)`, opcode 0x02 (R102). -/
  | setPixel (x y : Int) (colour : Colour)
  /-- `getPixel(x, y)`, opcode 0x03 (R104). -/
  | getPixel (x y : Int)
  /-- `flipVertically()`, opcode 0x04 (R105). -/
  | flipVertically
  /-- `drawLine(x0, y0, x1, y1, colour)`, opcode 0x05 (R170). -/
  | drawLine (x0 y0 x1 y1 : Int) (colour : Colour)
  /-- `encode()`, opcode 0x06 (R120). -/
  | encode
  /-- `write(useRLE)`, opcode 0x07 (R150). -/
  | write (useRLE : Bool)
  /-- RAW_PACKET: one raw packet of `count` pixels (R79). -/
  | rawPacket (count : Nat)
  /-- RUN_PACKET: one run packet of `count` pixels (R80). -/
  | runPacket (count : Nat)
  /-- TGA_HEADER: the 18 header bytes (R82). -/
  | tgaHeader (useRLE : Bool)
  /-- TGA_TRAILER: the 26 trailer bytes (R85). -/
  | tgaTrailer
  deriving DecidableEq, Repr

/-- The elements an output stream is made of, as the sequencer issues them (R86, log 8). -/
inductive StreamElement where
  | rawPacket (count : Nat)
  | runPacket (count : Nat)
  | tgaHeader (useRLE : Bool)
  | tgaTrailer
  deriving DecidableEq, Repr

/-- The instruction that emits a stream element. -/
def StreamElement.toInstr : StreamElement → Instr
  | .rawPacket n => .rawPacket n
  | .runPacket n => .runPacket n
  | .tgaHeader r => .tgaHeader r
  | .tgaTrailer => .tgaTrailer

/-- The two shapes in which a row is encoded (30_encoding.md): a command word (R70), or bytes of the stream (R78 to R85). -/
inductive Encoding where
  | command (word : CommandWord)
  | stream (bytes : List Byte)
  deriving DecidableEq, Repr

end Sys2Proof
end

