-- ==== Sys2Proof/Machine/State.lean ====
section
/-! DEFINITION. The state of the core and of its ports (R20 to R44), as plain data, its value after reset, and the reasons
a step can stop. -/

namespace Sys2Proof.Machine

/-- Why the machine stops. -/
inductive Fault where
  /-- A write to a byte address that does not exist (R15, R33, R54). Raised by `State.memWrite` alone, and never reached:
  every write of a command lies inside `MEM` (R54), so no instruction ends in it from any state (log 7). Safe: the model
  stops where the spec has no access at all. -/
  | addressOutsideMemory
  deriving DecidableEq, Repr

/-- Why an instruction is refused. -/
inductive Refusal where
  /-- No meaning has been given to the instruction. Raised by no arm: every row of the table has its meaning. Safe. -/
  | notModelled (mnemonic : String)
  deriving DecidableEq, Repr

/-- The response codes (R200). -/
inductive Code where
  | ok
  | invalidDimension
  | outOfBounds
  | ioError
  | noBuffer
  | illegalCommand
  deriving DecidableEq, Repr

/-- A response: `rsp_code` and `rsp_data` (R39). -/
structure Response where
  code : Code
  data : BitVec 24
  deriving DecidableEq, Repr

/-- `PHASE` (R25). -/
inductive Phase where
  | idle
  | busy
  deriving DecidableEq, Repr

/-- The encoder's working registers (R26), over the unbounded numbers that R13 allows; `EncoderRegs.fits` of Safety.lean
is their width (log 5). -/
structure EncoderRegs where
  npixels    : Nat
  curpix     : Nat
  chunkstart : Nat
  curbyte    : Nat
  runLength  : Nat
  raw        : Bool
  succEq     : Bool
  deriving DecidableEq, Repr

/-- The rasterizer's working registers (R28), over the unbounded integers that R13 allows; `LineRegs.fits` of Safety.lean
is their width (log 5). -/
structure LineRegs where
  x0     : Int
  y0     : Int
  x1     : Int
  y1     : Int
  steep  : Bool
  dx     : Int
  dy     : Int
  derr   : Int
  err    : Int
  x      : Int
  y      : Int
  ystep  : Int
  colour : Colour
  deriving DecidableEq, Repr

/-- The flip's scratch row and row counter (R32). -/
structure FlipRegs where
  scratch : List Byte
  j       : Nat
  deriving DecidableEq, Repr

/-- What the host presents while the core is idle (R38, R43): a command word together with the sink's answers to that
command, given as the index of the first refused byte or none (`fail_at` of R40); or a reset (log 2, log 3). -/
inductive Input where
  | command (word : CommandWord) (failAt : Option Nat)
  | reset
  deriving DecidableEq, Repr

/-- The state. -/
structure State where
  /-- `WIDTH`, register 0 (R21). -/
  width      : BitVec 16
  /-- `HEIGHT`, register 1 (R21). -/
  height     : BitVec 16
  /-- `STATUS`, register 2: bit 0 `ALLOC`, bits 3:1 `LAST`, bit 4 `FATAL` (R22). -/
  status     : BitVec 5
  /-- `PHASE` (R25). -/
  phase      : Phase
  /-- `MEM` (R33): the bytes that are not 0x00, addresses strictly rising (log 6). -/
  mem        : List Host.Cell
  /-- The encoder's working registers (R26). -/
  enc        : EncoderRegs
  /-- The rasterizer's working registers (R28). -/
  line       : LineRegs
  /-- The flip's scratch row and counter (R32). -/
  flip       : FlipRegs
  /-- The most recent response, none since reset (R39, log 12). -/
  rsp        : Option Response
  /-- The bytes the sink has accepted of the most recent stream (R40, R41, log 12). -/
  stream     : List Byte
  /-- The sink's answers to the current command: the index of the first byte it refuses, if any (R40, log 3). -/
  sinkFailAt : Option Nat
  /-- What the host still presents, first first (R38, R43, log 2). -/
  inputs     : List Input
  /-- The stream elements a busy core still has to issue, first first (log 8). -/
  todo       : List StreamElement
  /-- The model's own: the index of the last draw of free values (log 19). -/
  freeCount  : Nat
  deriving DecidableEq, Repr

/-- The state after reset (R44, R230): no buffer, nothing recorded, idle. The working registers, which R44 leaves
unspecified, hold zero (log 4); the environment has presented nothing (log 2, log 3); no free value was drawn (log 19). -/
def State.reset : State where
  width := 0
  height := 0
  status := 0
  phase := .idle
  mem := []
  enc := { npixels := 0, curpix := 0, chunkstart := 0, curbyte := 0, runLength := 0, raw := false, succEq := false }
  line := { x0 := 0, y0 := 0, x1 := 0, y1 := 0, steep := false, dx := 0, dy := 0, derr := 0, err := 0, x := 0, y := 0,
            ystep := 0, colour := { blue := 0, green := 0, red := 0 } }
  flip := { scratch := [], j := 0 }
  rsp := none
  stream := []
  sinkFailAt := none
  inputs := []
  todo := []
  freeCount := 0

/-- The outcome of an instruction or a step. -/
abbrev Result := Host.Outcome State Fault Refusal

/-- How a piece of a stream command's emission ends: it goes on, or the sink has refused a byte (R40). -/
inductive Flow where
  | go (s : State)
  | refused (s : State)
  deriving DecidableEq, Repr

/-- What the core does next: run an instruction from a state, or just move to a state. -/
inductive Fetched where
  | run (i : Instr) (s : State)
  | done (s : State)
  deriving DecidableEq, Repr

end Sys2Proof.Machine
end

