-- ==== Sys2Proof/Machine/Flags.lean ====
section
/-! DEFINITION. The flags: the fields of STATUS and how the end of a command writes them (R22, R208), the encoder's `raw`
and `succ_eq` (R27, R134), the rasterizer's `steep` and `ystep` (R30, R171, R176). -/

namespace Sys2Proof.Machine

/-- The number of a response code (R200). -/
def Code.toBits : Code → BitVec 3
  | .ok => 0
  | .invalidDimension => 1
  | .outOfBounds => 2
  | .ioError => 3
  | .noBuffer => 4
  | .illegalCommand => 5

/-- The two codes that set `FATAL` (R22, R208). -/
def Code.isFatal : Code → Bool
  | .invalidDimension => true
  | .ioError => true
  | _ => false

/-- `STATUS` from its fields: `{FATAL, LAST, ALLOC}` (R22). -/
def statusOf (alloc : Bool) (last : BitVec 3) (fatal : Bool) : BitVec 5 :=
  BitVec.ofBool fatal ++ last ++ BitVec.ofBool alloc

/-- `STATUS.ALLOC`, bit 0 (R22). -/
def State.alloc (s : State) : Bool := s.status.getLsbD 0

/-- `STATUS.LAST`, bits 3:1 (R22). -/
def State.last (s : State) : BitVec 3 := s.status.extractLsb' 1 3

/-- `STATUS.FATAL`, bit 4 (R22). -/
def State.fatal (s : State) : Bool := s.status.getLsbD 4

/-- `STATUS` after a command ends with a code: `LAST` is the code, `FATAL` is set by a fatal code and otherwise kept,
`ALLOC` is kept (R208). -/
def State.statusAfter (s : State) (code : Code) : BitVec 5 :=
  statusOf s.alloc code.toBits (s.fatal || code.isFatal)

/-- One comparison of the encoder: `succ_eq` is its result, `curbyte` moves to the next pixel, and the first comparison of
a chunk, and only that one, sets `raw` (R121, R123). -/
def EncoderRegs.compare (e : EncoderRegs) (equal : Bool) : EncoderRegs :=
  { e with succEq := equal, curbyte := e.curbyte + 3, raw := if e.runLength = 1 then !equal else e.raw }

/-- The steep test on the operands as given, strict (R171). -/
def isSteep (x0 y0 x1 y1 : Int) : Bool := decide (|x0 - x1| < |y0 - y1|)

/-- The sign of the secondary step (R176). -/
def ystepOf (y0 y1 : Int) : Int := if y1 > y0 then 1 else -1

end Sys2Proof.Machine
end

