-- ==== Sys2Proof/Config.lean ====
section
/-! DEFINITION. What the spec fixes as constants of the hardware (R7) and the one parameter it leaves open that is no input
of a step, MEM_BYTES (R9). The other open parameter, the sink's answers, is data of the state (log 3). Then the free values:
what a packet past the end of the buffer finds there (log 19). -/

namespace Sys2Proof

/-- BPP: bytes per pixel (R7). -/
def Config.bpp : Nat := 3

/-- MAX_CHUNK: most pixels in one packet (R7). -/
def Config.maxChunk : Nat := 128

/-- MAX_DIM: largest legal width or height (R7). -/
def Config.maxDim : Nat := 32767

/-- TYPE_RLE when `useRLE`, else TYPE_RAW: the header's `dataTypeCode` (R7, R82). -/
def Config.typeCode (useRLE : Bool) : Byte := if useRLE then 10 else 2

/-- How far the pixel memory's capacity exceeds the largest buffer: open (R9, U11, log 13). -/
opaque Config.memBytesAbove : Nat

/-- MEM_BYTES: the capacity of the pixel memory, at least `MAX_DIM*MAX_DIM*3` and otherwise open (R9, log 13). -/
def Config.memBytes : Nat := Config.maxDim * Config.maxDim * Config.bpp + Config.memBytesAbove

/-- A free value: what is read at a byte address that does not exist, by the index of the draw and the address. Nothing
constrains it (R33, R79, log 19). -/
opaque Config.freeByte : Nat → Nat → Byte

/-- A free value: what the 30 bits of `curpix` hold after an addition that does not fit them, by the index of the draw.
Nothing constrains it (R8, R26, log 19). -/
opaque Config.freePixelIndex : Nat → BitVec 30

end Sys2Proof
end

