-- ==== Sys2Proof/WellFormed.lean ====
section
/-! DEFINITION. The operand ranges an encoding can carry: 16-bit signed coordinates and dimensions (R74), packet counts
1 to 128 (R78). -/

namespace Sys2Proof

/-- The range of a 16-bit signed operand, −32768 to 32767 (R8, R74). -/
def isOperand16 (n : Int) : Bool := decide (-32768 ≤ n) && decide (n ≤ 32767)

/-- The range of a packet's pixel count, N in 1 to 128 (R78). -/
def isPacketCount (n : Nat) : Bool := decide (1 ≤ n) && decide (n ≤ 128)

/-- Every operand is one the instruction's encoding can carry (R74, R78). -/
def Instr.wf : Instr → Bool
  | .create w h => isOperand16 w && isOperand16 h
  | .setPixel x y _ => isOperand16 x && isOperand16 y
  | .getPixel x y => isOperand16 x && isOperand16 y
  | .flipVertically => true
  | .drawLine x0 y0 x1 y1 _ => isOperand16 x0 && isOperand16 y0 && isOperand16 x1 && isOperand16 y1
  | .encode => true
  | .write _ => true
  | .rawPacket n => isPacketCount n
  | .runPacket n => isPacketCount n
  | .tgaHeader _ => true
  | .tgaTrailer => true

/-- The same check for a stream element. -/
def StreamElement.wf (e : StreamElement) : Bool := e.toInstr.wf

end Sys2Proof
end

