-- ==== Sys2Proof/Decode.lean ====
section
/-! DEFINITION. The encodings of 30_encoding.md read both ways: the command word (R70 to R75), the packets' count bytes
(R78 to R81), the header and trailer (R82 to R85), and the reference decoder of packet streams (R89). -/

namespace Sys2Proof

/-- Why an encoding is no instruction. -/
inductive DecodeError where
  /-- `OP` is 0x00 or 0x08 to 0xFF (R75). -/
  | illegalOpcode (op : Byte)
  /-- The bytes are no count byte, no header and no trailer. -/
  | unknownElement
  deriving DecidableEq, Repr

/-! ### The command word (R71) -/

/-- `OP`, bits 7:0. -/
def opField (w : CommandWord) : Byte := w.extractLsb' 0 8
/-- `A`, bits 23:8. -/
def aField (w : CommandWord) : BitVec 16 := w.extractLsb' 8 16
/-- `B`, bits 39:24. -/
def bField (w : CommandWord) : BitVec 16 := w.extractLsb' 24 16
/-- `C`, bits 55:40. -/
def cField (w : CommandWord) : BitVec 16 := w.extractLsb' 40 16
/-- `D`, bits 71:56. -/
def dField (w : CommandWord) : BitVec 16 := w.extractLsb' 56 16
/-- The colour operand: `BLUE` 79:72, `GREEN` 87:80, `RED` 95:88. -/
def colourField (w : CommandWord) : Colour :=
  { blue := w.extractLsb' 72 8, green := w.extractLsb' 80 8, red := w.extractLsb' 88 8 }
/-- `useRLE`, bit 8. -/
def useRleField (w : CommandWord) : Bool := w.getLsbD 8

/-- `sext_16` (R12): the 16-bit field read as a two's-complement integer. -/
def sext16 (v : BitVec 16) : Int := v.toInt

/-- The 16-bit field that `sext_16` reads as `n`. -/
def field16 (n : Int) : BitVec 16 := BitVec.ofInt 16 n

/-- The command a word carries, or the refusal of its opcode (R72 to R75). -/
def decodeCommand (w : CommandWord) : Except DecodeError Instr :=
  if opField w = 0x01 then .ok (.create (sext16 (aField w)) (sext16 (bField w)))
  else if opField w = 0x02 then .ok (.setPixel (sext16 (aField w)) (sext16 (bField w)) (colourField w))
  else if opField w = 0x03 then .ok (.getPixel (sext16 (aField w)) (sext16 (bField w)))
  else if opField w = 0x04 then .ok .flipVertically
  else if opField w = 0x05 then
    .ok (.drawLine (sext16 (aField w)) (sext16 (bField w)) (sext16 (cField w)) (sext16 (dField w)) (colourField w))
  else if opField w = 0x06 then .ok .encode
  else if opField w = 0x07 then .ok (.write (useRleField w))
  else .error (.illegalOpcode (opField w))

/-- The colour whose channels are all zero; the filler of colour fields a format ignores. -/
def Colour.zero : Colour := { blue := 0, green := 0, red := 0 }

/-- A command word from its fields, most significant first: `RED GREEN BLUE D C B A OP` (R71). -/
def assemble (op : Byte) (a b c d : BitVec 16) (colour : Colour) : CommandWord :=
  colour.red ++ colour.green ++ colour.blue ++ d ++ c ++ b ++ a ++ op

/-! ### Stream elements (R78 to R85) -/

/-- The count byte of a raw packet of `n` pixels, `n − 1` (R79). -/
def rawCountByte (n : Nat) : Byte := BitVec.ofNat 8 (n - 1)

/-- The count byte of a run packet of `n` pixels, `n + 127` (R80, R81). -/
def runCountByte (n : Nat) : Byte := BitVec.ofNat 8 (n + 127)

/-- `le16` (R12): the two bytes of a 16-bit number, least significant first. -/
def le16 (v : BitVec 16) : List Byte := [v.extractLsb' 0 8, v.extractLsb' 8 8]

/-- The 18 header bytes for a data type code and the dimensions (R82, R83). -/
def headerBytes (dataTypeCode : Byte) (width height : BitVec 16) : List Byte :=
  [0x00, 0x00, dataTypeCode, 0x00, 0x00, 0x00, 0x00, 0x00, 0x00, 0x00, 0x00, 0x00]
    ++ le16 width ++ le16 height ++ [0x18, 0x20]

/-- The 26 trailer bytes: two zero references, `TRUEVISION-XFILE.` and a zero byte (R84, R85). -/
def trailerBytes : List Byte :=
  [0x00, 0x00, 0x00, 0x00, 0x00, 0x00, 0x00, 0x00]
    ++ [0x54, 0x52, 0x55, 0x45, 0x56, 0x49, 0x53, 0x49, 0x4F, 0x4E, 0x2D, 0x58, 0x46, 0x49, 0x4C, 0x45, 0x2E, 0x00]

/-- The packet a count byte announces: bit 7 is the kind, bits 6:0 the pixel count less one (R78, R87). -/
def decodeCountByte (cb : Byte) : StreamElement :=
  if cb.getLsbD 7 then .runPacket (cb.toNat - 127) else .rawPacket (cb.toNat + 1)

/-- The bytes are a header of the given kind, whatever dimensions it carries (R82, log 10). -/
def isHeader (useRLE : Bool) (bs : List Byte) : Bool :=
  bs == [0x00, 0x00, Config.typeCode useRLE, 0x00, 0x00, 0x00, 0x00, 0x00, 0x00, 0x00, 0x00, 0x00]
    ++ (bs.drop 12).take 4 ++ [0x18, 0x20] && bs.length == 18

/-- The stream element that bytes encode: a count byte, a header or a trailer. -/
def decodeElement (bs : List Byte) : Except DecodeError StreamElement :=
  if bs.length = 1 then .ok (decodeCountByte (bs.headD 0))
  else if isHeader false bs then .ok (.tgaHeader false)
  else if isHeader true bs then .ok (.tgaHeader true)
  else if bs = trailerBytes then .ok .tgaTrailer
  else .error .unknownElement

/-! ### All rows -/

/-- The decoder: the instruction an encoding stands for, or why it is none. -/
def decode : Encoding → Except DecodeError Instr
  | .command w => decodeCommand w
  | .stream bs =>
    match decodeElement bs with
    | .ok e => .ok e.toInstr
    | .error r => .error r

/-- The encoder (R71 to R74, R79 to R85): fields a format ignores are zero, and so are a header's dimension bytes, which
the core fills from its registers (log 10). -/
def encode : Instr → Encoding
  | .create w h => .command (assemble 0x01 (field16 w) (field16 h) 0 0 Colour.zero)
  | .setPixel x y c => .command (assemble 0x02 (field16 x) (field16 y) 0 0 c)
  | .getPixel x y => .command (assemble 0x03 (field16 x) (field16 y) 0 0 Colour.zero)
  | .flipVertically => .command (assemble 0x04 0 0 0 0 Colour.zero)
  | .drawLine x0 y0 x1 y1 c => .command (assemble 0x05 (field16 x0) (field16 y0) (field16 x1) (field16 y1) c)
  | .encode => .command (assemble 0x06 0 0 0 0 Colour.zero)
  | .write r => .command (assemble 0x07 (if r then 1 else 0) 0 0 0 Colour.zero)
  | .rawPacket n => .stream [rawCountByte n]
  | .runPacket n => .stream [runCountByte n]
  | .tgaHeader r => .stream (headerBytes (Config.typeCode r) 0 0)
  | .tgaTrailer => .stream trailerBytes

/-! ### Words numbered as the opcode table numbers them -/

/-- The low `n` bytes of a number, least significant first. -/
def bytesLE : Nat → Nat → List Byte
  | 0, _ => []
  | n + 1, w => BitVec.ofNat 8 w :: bytesLE n (w / 256)

/-- The encoding a table word stands for (log 9): a single byte is the command word with that opcode where the opcode is
one, else a packet's count byte; up to 96 bits is a command word; longer words are stream bytes. -/
def tableEncoding (nbits w : Nat) : Encoding :=
  if nbits ≤ 8 then
    if 1 ≤ w ∧ w ≤ 7 then .command (BitVec.ofNat 96 w) else .stream (bytesLE 1 w)
  else if nbits ≤ 96 then .command (BitVec.ofNat 96 w)
  else .stream (bytesLE ((nbits + 7) / 8) w)

/-- The instruction the decoder reads from a table word (log 9). -/
def decodeTableWord (nbits w : Nat) : Option Instr :=
  match decode (tableEncoding nbits w) with
  | .ok i => some i
  | .error _ => none

/-! ### The reference decoder of packet streams (R89)

For stating what the encoder's output means; the core has no read path (R5). -/

/-- A packet read back from a stream: its kind, the number of pixels it stands for, and the triples that follow its count
byte (R78). -/
structure Packet where
  isRun   : Bool
  count   : Nat
  triples : List Colour
  deriving DecidableEq, Repr

/-- The pixels a packet stands for: its triples, or copies of its one triple (R79, R80). -/
def Packet.pixels (p : Packet) : List Colour :=
  if p.isRun then List.replicate p.count (p.triples.headD Colour.zero) else p.triples

/-- Take `n` pixel triples, blue, green, red, off the front of a byte sequence (R51). -/
def takeTriples : Nat → List Byte → Option (List Colour × List Byte)
  | 0, bs => some ([], bs)
  | n + 1, b :: g :: r :: bs =>
    match takeTriples n bs with
    | some (ts, rest) => some ({ blue := b, green := g, red := r } :: ts, rest)
    | none => none
  | _ + 1, _ => none

/-- The packets of a byte sequence, until the bytes are used up (R87, R89); the first argument bounds their number. -/
def parsePackets : Nat → List Byte → Option (List Packet)
  | _, [] => some []
  | 0, _ :: _ => none
  | fuel + 1, cb :: bs =>
    let isRun := cb.getLsbD 7
    let count := if isRun then cb.toNat - 127 else cb.toNat + 1
    match takeTriples (if isRun then 1 else count) bs with
    | none => none
    | some (ts, rest) =>
      match parsePackets fuel rest with
      | none => none
      | some ps => some ({ isRun := isRun, count := count, triples := ts } :: ps)

/-- The packets of a whole stream. -/
def packetsOf (bs : List Byte) : Option (List Packet) := parsePackets bs.length bs

/-- `Decode(bytes)` of R89: the pixels the packets stand for, in order. -/
def decodeStreamPixels (bs : List Byte) : Option (List Colour) :=
  match packetsOf bs with
  | some ps => some (ps.flatMap Packet.pixels)
  | none => none

end Sys2Proof
end

