-- ==== Sys2Proof/Machine/Operands.lean ====
section
/-! DEFINITION. Operand forms: colours as bytes and as 24-bit data (R14, R50, R52), the bounds test (R54) and the one
addressing mode (R53). -/

namespace Sys2Proof.Machine

/-- `bytes(c)`: blue, green, red (R14, R50). -/
def colourBytes (c : Colour) : List Byte := [c.blue, c.green, c.red]

/-- The colour that three stored bytes are (R50). -/
def colourOfBytes (bs : List Byte) : Colour := { blue := bs.getD 0 0, green := bs.getD 1 0, red := bs.getD 2 0 }

/-- `col24(c)`: `{red, green, blue}`, blue in bits 7:0 (R14). -/
def col24 (c : Colour) : BitVec 24 := c.red ++ c.green ++ c.blue

/-- `WIDTH*HEIGHT`, the number of pixels (R26). -/
def State.npix (s : State) : Nat := s.width.toNat * s.height.toNat

/-- `WIDTH*HEIGHT*3`, the length of `MEM` (R33, R34). -/
def State.memSize (s : State) : Nat := s.npix * 3

/-- `WIDTH*3`, the bytes of one row (R35, R105). -/
def State.rowBytes (s : State) : Nat := s.width.toNat * 3

/-- The bounds test, on each coordinate separately (R54). -/
def State.outOfBounds (s : State) (x y : Int) : Bool :=
  decide (x < 0) || decide (y < 0) || decide (x ≥ s.width.toNat) || decide (y ≥ s.height.toNat)

/-- The byte address `(x + y*WIDTH)*3` of a pixel whose coordinates passed the bounds test (R53). -/
def State.pixelOffset (s : State) (x y : Int) : Nat := ((x + y * s.width.toNat) * 3).toNat

end Sys2Proof.Machine
end

