-- ==== Sys2Proof/Machine/Ops.lean ====
section
/-! DEFINITION. The named operations: memory (R15, R33), the sink (R40), and the end of a command (R208), which is also
how an error is taken: the core has no trap, no saved context and nothing to return from (R209, R210). -/

namespace Sys2Proof.Machine

/-! ### Memory: canonical lists of cells (log 6) -/

/-- The canonical form: addresses strictly rising, no cell equal to what an unlisted address reads as. -/
abbrev Memory.wf (m : List Host.Cell) : Prop :=
  m.Pairwise (fun c d => c.1 < d.1) ∧ ∀ c ∈ m, c.2 ≠ 0

/-- What an address that no cell lists reads as: `create` writes every byte with zero (R100, R101). -/
def Memory.unlisted : Byte := 0

/-- The byte at an address. -/
def Memory.read : List Host.Cell → Nat → Byte
  | [], _ => Memory.unlisted
  | (b, v) :: m, a => if a = b then v else Memory.read m a

/-- Put a cell in its place by address. -/
def Memory.insert : List Host.Cell → Nat → Byte → List Host.Cell
  | [], a, v => [(a, v)]
  | (b, u) :: m, a, v => if a < b then (a, v) :: (b, u) :: m else (b, u) :: Memory.insert m a v

/-- Write one byte, keeping the canonical form. -/
def Memory.write (m : List Host.Cell) (a : Nat) (v : Byte) : List Host.Cell :=
  let rest := m.filter (fun c => c.1 != a)
  if v = Memory.unlisted then rest else Memory.insert rest a v

/-- Write bytes at rising addresses, lowest address first (R15). -/
def Memory.writeBytes : List Host.Cell → Nat → List Byte → List Host.Cell
  | m, _, [] => m
  | m, a, v :: vs => Memory.writeBytes (Memory.write m a v) (a + 1) vs

/-- The byte of `MEM` at an address. -/
def State.byteAt (s : State) (a : Nat) : Byte := Memory.read s.mem a

/-- The `n` bytes of `MEM` from an address on, lowest address first. -/
def State.bytesAt (s : State) (a n : Nat) : List Byte := (List.range n).map (fun k => s.byteAt (a + k))

/-- `MemRead(addr, n)` (R15): the stored bytes; at an address that does not exist (R33), which only a packet element
issued past the end of the buffer reads, a free value (log 19). -/
def State.memRead (s : State) (a n : Nat) : List Byte :=
  (List.range n).map fun k => if a + k < s.memSize then s.byteAt (a + k) else Config.freeByte s.freeCount (a + k)

/-- `MemWrite(addr, n, s)` (R15), with `n` the number of bytes given; no rule writes outside `MEM` (R54, log 7). -/
def State.memWrite (s : State) (a : Nat) (bs : List Byte) : Except Fault State :=
  if a + bs.length ≤ s.memSize then .ok { s with mem := Memory.writeBytes s.mem a bs } else .error .addressOutsideMemory

/-- `TrySetPixel` (R170, R175): the body of `setPixel` with its `OutOfBounds` outcome discarded. -/
def State.trySetPixel (s : State) (x y : Int) (c : Colour) : Except Fault State :=
  if s.outOfBounds x y then .ok s else s.memWrite (s.pixelOffset x y) (colourBytes c)

/-! ### The end of a command -/

/-- The common epilogue (R208): `LAST` and `FATAL`, the response, `PHASE <- IDLE`; nothing is left to issue. -/
def State.complete (s : State) (code : Code) (data : BitVec 24) : State :=
  { s with status := s.statusAfter code, phase := .idle, rsp := some { code := code, data := data }, todo := [] }

/-- A command that ends with a code and data. -/
def State.respond (s : State) (code : Code) (data : BitVec 24) : Result := .next (s.complete code data)

/-! ### The sink -/

/-- A new stream begins empty (R41). -/
def State.openStream (s : State) : State := { s with stream := [] }

/-- Offer bytes to the sink one at a time, in order; the first refusal ends the emission (R15, R40). -/
def State.emit : State → List Byte → Flow
  | s, [] => .go s
  | s, b :: bs =>
    if s.sinkFailAt = some s.stream.length then .refused s
    else State.emit { s with stream := s.stream ++ [b] } bs

/-- Emission after emission: a refusal ends it (R15). -/
def Flow.andThen : Flow → (State → Flow) → Flow
  | .go s, k => k s
  | .refused s, _ => .refused s

/-- The end of a stream command: `OK`, or `IOError` at the first refused byte (R120, R135, R150, R153). -/
def Flow.finish : Flow → Result
  | .go s => s.respond .ok 0
  | .refused s => s.respond .ioError 0

/-- The end of one stream element inside a command: the command goes on, or ends with `IOError` (R135, log 8). -/
def Flow.proceed : Flow → Result
  | .go s => .next s
  | .refused s => s.respond .ioError 0

end Sys2Proof.Machine
end

