-- ==== Sys2Proof/Machine/LineRasterizer.lean ====
section
/-! DEFINITION. The line rasterizer (R170 to R185). -/

namespace Sys2Proof.Machine

/-- Steps 1 and 2 and the initial values (R171, R172, R174, R176): in steep mode x and y change roles, then the endpoints
are put in order, whole. The error accumulator starts at 0 (log 14). -/
def LineRegs.setup (x0 y0 x1 y1 : Int) (colour : Colour) : LineRegs :=
  let steep := isSteep x0 y0 x1 y1
  let a0 := if steep then y0 else x0
  let b0 := if steep then x0 else y0
  let a1 := if steep then y1 else x1
  let b1 := if steep then x1 else y1
  let swap := decide (a0 > a1)
  let c0 := if swap then a1 else a0
  let d0 := if swap then b1 else b0
  let c1 := if swap then a0 else a1
  let d1 := if swap then b0 else b1
  { x0 := c0, y0 := d0, x1 := c1, y1 := d1, steep := steep, dx := c1 - c0, dy := d1 - d0, derr := 2 * |d1 - d0|,
    err := 0, x := c0, y := d0, ystep := ystepOf d0 d1, colour := colour }

/-- The screen point of the current position, x and y exchanged back in steep mode (R175). -/
def LineRegs.point (r : LineRegs) : Int × Int := if r.steep then (r.y, r.x) else (r.x, r.y)

/-- The update after a write: `err` grows by `2*|dy|`; when it exceeds `dx`, strictly, the secondary coordinate steps once
and `2*dx` is taken off (R173, R174); then the dominant axis moves by one. -/
def LineRegs.advance (r : LineRegs) : LineRegs :=
  if r.err + r.derr > r.dx then { r with err := r.err + r.derr - 2 * r.dx, y := r.y + r.ystep, x := r.x + 1 }
  else { r with err := r.err + r.derr, x := r.x + 1 }

/-- The number of dominant-axis positions from `x0` to `x1` inclusive (R173). -/
def LineRegs.positions (r : LineRegs) : Nat := (r.x1 - r.x0 + 1).toNat

/-- One position of the walk: the write, clipped silently, then the update (R174, R175). -/
def State.lineStep (s : State) : Except Fault State :=
  match s.trySetPixel s.line.point.1 s.line.point.2 s.line.colour with
  | .ok t => .ok { t with line := s.line.advance }
  | .error f => .error f

/-- The walk, for the given number of positions (R173). -/
def State.lineWalk : Nat → State → Except Fault State
  | 0, s => .ok s
  | n + 1, s =>
    match s.lineStep with
    | .ok t => State.lineWalk n t
    | .error f => .error f

/-- `drawLine` (R170), after the check that a buffer exists (R207). -/
def execDrawLine (x0 y0 x1 y1 : Int) (colour : Colour) (s : State) : Result :=
  let r := LineRegs.setup x0 y0 x1 y1 colour
  if s.alloc = false then s.respond .noBuffer 0
  else match State.lineWalk r.positions { s with line := r } with
    | .ok t => t.respond .ok 0
    | .error f => .fault f

end Sys2Proof.Machine
end

