-- ==== Sys2Proof/Machine/PixelBuffer.lean ====
section
/-! DEFINITION. The PixelBuffer commands: create, setPixel, getPixel, flipVertically (R100 to R107). -/

namespace Sys2Proof.Machine

/-- A buffer of the given dimensions, every byte zero, whatever stood there before (R100). -/
def State.allocate (s : State) (w h : Int) : State :=
  { s with width := field16 w, height := field16 h, mem := [], status := statusOf true s.last s.fatal }

/-- `create` (R100). -/
def execCreate (w h : Int) (s : State) : Result :=
  if w ≤ 0 ∨ h ≤ 0 then s.respond .invalidDimension 0
  else (s.allocate w h).respond .ok 0

/-- `setPixel` (R102), after the check that a buffer exists (R207). -/
def execSetPixel (x y : Int) (c : Colour) (s : State) : Result :=
  if s.alloc = false then s.respond .noBuffer 0
  else if s.outOfBounds x y then s.respond .outOfBounds 0
  else match s.trySetPixel x y c with
    | .ok t => t.respond .ok 0
    | .error f => .fault f

/-- `getPixel` (R104), after the check that a buffer exists (R207). -/
def execGetPixel (x y : Int) (s : State) : Result :=
  if s.alloc = false then s.respond .noBuffer 0
  else if s.outOfBounds x y then s.respond .outOfBounds 0
  else s.respond .ok (col24 (colourOfBytes (s.memRead (s.pixelOffset x y) 3)))

/-- One turn of the flip's loop: row `j` and row `HEIGHT-1-j` change places through the scratch row (R105). -/
def State.swapRows (s : State) : Except Fault State :=
  let rb := s.rowBytes
  let j := s.flip.j
  let k := s.height.toNat - 1 - j
  let low := s.memRead (j * rb) rb
  match s.memWrite (j * rb) (s.memRead (k * rb) rb) with
  | .ok s1 =>
    match s1.memWrite (k * rb) low with
    | .ok s2 => .ok { s2 with flip := { scratch := low, j := j + 1 } }
    | .error f => .error f
  | .error f => .error f

/-- The flip's loop, for the given number of turns (R105). -/
def State.flipRows : Nat → State → Except Fault State
  | 0, s => .ok s
  | n + 1, s =>
    match s.swapRows with
    | .ok t => State.flipRows n t
    | .error f => .error f

/-- `flipVertically` (R105), after the check that a buffer exists (R207). -/
def execFlipVertically (s : State) : Result :=
  if s.alloc = false then s.respond .noBuffer 0
  else match State.flipRows (s.height.toNat / 2) { s with flip := { s.flip with j := 0 } } with
    | .ok t => t.respond .ok 0
    | .error f => .fault f

end Sys2Proof.Machine
end

