-- ==== Sys2Proof/Machine/RleEncoder.lean ====
section
/-! DEFINITION. The run-length packet encoder (R120 to R137), and the two packet formats as elements issued at the scan
pointer (R79, R80). -/

namespace Sys2Proof.Machine

/-- The start of a chunk at the scan pointer: `chunkstart`, `curbyte`, `run_length` and `raw` (R121). -/
def EncoderRegs.startChunk (e : EncoderRegs) : EncoderRegs :=
  { e with chunkstart := 3 * e.curpix, curbyte := 3 * e.curpix, runLength := 1, raw := true }

/-- The inner loop's condition: the buffer's end and the 128 cap (R121, R122). -/
def EncoderRegs.mayExtend (e : EncoderRegs) : Bool :=
  decide (e.curpix + e.runLength < e.npixels) && decide (e.runLength < Config.maxChunk)

/-- The look-ahead of one chunk, for at most the given number of turns (R121). In order: the comparison and the
classification (R123, R134); the decrement-then-break of a raw chunk that meets two equal pixels (R124); the stop of a
compressible chunk that meets two different ones (R125); extension by one. -/
def State.lookAhead (s : State) : Nat → EncoderRegs → EncoderRegs
  | 0, e => e
  | n + 1, e =>
    if e.mayExtend then
      let e1 := e.compare (s.memRead e.curbyte 3 == s.memRead (e.curbyte + 3) 3)
      if e1.raw && e1.succEq then { e1 with runLength := e1.runLength - 1 }
      else if !e1.raw && !e1.succEq then e1
      else State.lookAhead s n { e1 with runLength := e1.runLength + 1 }
    else e

/-- The scan pointer moved past a chunk (R121). Every chunk of a command ends inside the buffer (R127); past its end the sum
may not fit the register's 30 bits (R26), and then the register holds a free value (log 19). -/
def State.pointerPast (s : State) (count : Nat) : Nat :=
  if s.enc.curpix + count ≤ s.npix ∨ s.enc.curpix + count < 2 ^ 30 then s.enc.curpix + count
  else (Config.freePixelIndex s.freeCount).toNat

/-- The end of a chunk: the scan pointer moves past it and its packet is emitted, the count byte first (R121, R135). -/
def State.emitChunk (s : State) : Flow :=
  let t := { s with enc := { s.enc with curpix := s.pointerPast s.enc.runLength } }
  if s.enc.raw then
    (t.emit [rawCountByte s.enc.runLength]).andThen fun u => u.emit (u.memRead s.enc.chunkstart (3 * s.enc.runLength))
  else
    (t.emit [runCountByte s.enc.runLength]).andThen fun u => u.emit (u.memRead s.enc.chunkstart 3)

/-- One chunk: start, look ahead, emit. The look-ahead makes at most 127 turns (R131). -/
def State.encodeChunk (s : State) : Flow :=
  State.emitChunk { s with enc := s.lookAhead Config.maxChunk s.enc.startChunk }

/-- The packet loop, for at most the given number of chunks (R121). -/
def State.encodeChunks : Nat → State → Flow
  | 0, s => .go s
  | n + 1, s => if s.enc.curpix < s.enc.npixels then s.encodeChunk.andThen (State.encodeChunks n) else .go s

/-- `EmitRLE()` (R121): every chunk has at least one pixel, so `npixels` turns are enough (R131). -/
def State.emitRLE (s : State) : Flow :=
  State.encodeChunks s.npix { s with enc := { s.enc with npixels := s.npix, curpix := 0 } }

/-- `encode` (R120), after the check that a buffer exists (R207); its stream begins empty (R41). -/
def execEncode (s : State) : Result :=
  if s.alloc = false then s.openStream.respond .noBuffer 0
  else s.openStream.emitRLE.finish

/-- Before a packet that counts more pixels than the buffer has from the scan pointer on, a fresh index is taken for the
free values that it may draw (log 19). -/
def State.drawPastEnd (s : State) (count : Nat) : State :=
  if s.enc.curpix + count ≤ s.npix then s else { s with freeCount := s.freeCount + 1 }

/-- A packet of a given kind and count issued at the scan pointer (log 8, log 9). -/
def State.issuePacket (s : State) (raw : Bool) (count : Nat) : Result :=
  if s.alloc = false then s.respond .noBuffer 0
  else
    (State.emitChunk
      { s.drawPastEnd count with enc := { s.enc.startChunk with runLength := count, raw := raw } }).proceed

/-- RAW_PACKET (R79): the count byte `N−1` and the `N` pixels from the scan pointer on. -/
def execRawPacket (count : Nat) (s : State) : Result := s.issuePacket true count

/-- RUN_PACKET (R80): the count byte `N+127` and the pixel at the scan pointer. -/
def execRunPacket (count : Nat) (s : State) : Result := s.issuePacket false count

end Sys2Proof.Machine
end

