-- ==== Sys2Proof/Machine/TgaWriter.lean ====
section
/-! DEFINITION. The TGA writer (R150 to R155), and the header and trailer as elements (R82 to R85). -/

namespace Sys2Proof.Machine

/-- The 18 header bytes, with the dimensions of the buffer (R82, R150, R155). -/
def State.emitHeader (s : State) (useRLE : Bool) : Flow :=
  s.emit (headerBytes (Config.typeCode useRLE) s.width s.height)

/-- The payload: the packets, or the whole memory in address order (R150, R151). -/
def State.emitPayload (s : State) (useRLE : Bool) : Flow :=
  if useRLE then s.emitRLE else s.emit (s.memRead 0 s.memSize)

/-- The 26 trailer bytes (R84, R85, R150). -/
def State.emitTrailer (s : State) : Flow := s.emit trailerBytes

/-- `write` (R150), after the check that a buffer exists (R207); its stream begins empty (R41). -/
def execWrite (useRLE : Bool) (s : State) : Result :=
  if s.alloc = false then s.openStream.respond .noBuffer 0
  else
    (((s.openStream.emitHeader useRLE).andThen fun t => t.emitPayload useRLE).andThen State.emitTrailer).finish

/-- TGA_HEADER (R82): the 18 header bytes of a buffer that exists (log 8, log 9). -/
def execTgaHeader (useRLE : Bool) (s : State) : Result :=
  if s.alloc = false then s.respond .noBuffer 0 else (s.emitHeader useRLE).proceed

/-- TGA_TRAILER (R85): the 26 trailer bytes (log 8, log 9). -/
def execTgaTrailer (s : State) : Result :=
  if s.alloc = false then s.respond .noBuffer 0 else s.emitTrailer.proceed

end Sys2Proof.Machine
end

