-- ==== Sys2Proof/Machine/Dispatch.lean ====
section
/-! DEFINITION. The dispatch: one arm per row of the opcode table. -/

namespace Sys2Proof.Machine

def exec (i : Instr) (s : State) : Host.Outcome State Fault Refusal :=
  match i with
  | .create w h => Sys2Proof.Machine.execCreate w h s
  | .setPixel x y c => Sys2Proof.Machine.execSetPixel x y c s
  | .getPixel x y => Sys2Proof.Machine.execGetPixel x y s
  | .flipVertically => Sys2Proof.Machine.execFlipVertically s
  | .drawLine x0 y0 x1 y1 c => Sys2Proof.Machine.execDrawLine x0 y0 x1 y1 c s
  | .encode => Sys2Proof.Machine.execEncode s
  | .write r => Sys2Proof.Machine.execWrite r s
  | .rawPacket n => Sys2Proof.Machine.execRawPacket n s
  | .runPacket n => Sys2Proof.Machine.execRunPacket n s
  | .tgaHeader r => Sys2Proof.Machine.execTgaHeader r s
  | .tgaTrailer => Sys2Proof.Machine.execTgaTrailer s

end Sys2Proof.Machine
end

