-- ==== Sys2Proof/Machine/Fetch.lean ====
section
/-! DEFINITION. How an instruction comes to run: there is no program counter; the host presents command words and resets
while the core is idle (R24, R25, R38, R43), and a busy core issues the elements of its stream (log 2, log 8). -/

namespace Sys2Proof.Machine

/-- A command is accepted (R25, R38): it leaves the channel, `PHASE` becomes `BUSY`, and the sink's answers to it are now
the current ones (R40). -/
def State.accept (s : State) (failAt : Option Nat) (rest : List Input) : State :=
  { s with phase := .busy, sinkFailAt := failAt, inputs := rest }

/-- A reset is taken (R43, R44): the reset state, with what the host still presents (log 11); the count of free draws goes
on (log 19). -/
def State.takeReset (s : State) (rest : List Input) : State :=
  { State.reset with inputs := rest, freeCount := s.freeCount }

/-- What the core does next. Idle: nothing while the host presents nothing (R241); a reset (R43); a command, whose word is
decoded, an illegal one answering `IllegalCommand` (R75, R205). Busy: the next element of the stream, or the end of the
command when none is left (log 8). -/
def State.fetch (s : State) : Fetched :=
  match s.phase with
  | .idle =>
    match s.inputs with
    | [] => .done s
    | .reset :: rest => .done (s.takeReset rest)
    | .command w failAt :: rest =>
      match decodeCommand w with
      | .ok i => .run i (s.accept failAt rest)
      | .error _ => .done ((s.accept failAt rest).complete .illegalCommand 0)
  | .busy =>
    match s.todo with
    | [] => .done (s.complete .ok 0)
    | e :: rest => .run e.toInstr { s with todo := rest }

/-- Put an encoded instruction where the core takes its next one from: a command word on the command channel of an idle
core, with the sink's current answers; a stream element at the head of what a busy core has to issue (log 2, log 8). -/
def State.place (s : State) : Encoding → State
  | .command w => { s with phase := .idle, inputs := .command w s.sinkFailAt :: s.inputs }
  | .stream bs =>
    match decodeElement bs with
    | .ok e => { s with phase := .busy, todo := e :: s.todo }
    | .error _ => s

end Sys2Proof.Machine
end

