-- ==== Sys2Proof/Machine/Step.lean ====
section
/-! DEFINITION. One step: a whole command, or nothing, or one element of a busy core's stream (R10, R25). -/

namespace Sys2Proof.Machine

/-- One step of the machine. -/
def step (s : State) : Host.Outcome State Fault Refusal :=
  match s.fetch with
  | .run i t => exec i t
  | .done t => .next t

/-- `s` with the instruction of a table word placed where `step` takes its next one from. -/
def State.withFetchWord (s : State) (nbits w : Nat) : State := s.place (tableEncoding nbits w)

end Sys2Proof.Machine
end

