-- ==== Sys2Proof/Safety.lean ====
section
/-! DEFINITION. The terms the claims are stated in: the widths of the working registers (R26, R28, R32), the invariant of
the machine, how a command ends and what it keeps (R208, R209), the picture as pixels (R14, R35), the chunk rule (R129)
and the rounded line (R178). -/

namespace Sys2Proof

/-- The seven commands (R72), as against the stream elements. -/
def Instr.isCommand : Instr → Bool
  | .rawPacket _ => false
  | .runPacket _ => false
  | .tgaHeader _ => false
  | .tgaTrailer => false
  | _ => true

/-- The commands that emit a stream (R86). -/
def Instr.isStreamCommand : Instr → Bool
  | .encode => true
  | .write _ => true
  | _ => false

/-- The codes a command can end with (R206); none for a stream element. -/
def Instr.codes : Instr → List Machine.Code
  | .create _ _ => [.ok, .invalidDimension]
  | .setPixel _ _ _ => [.ok, .outOfBounds, .noBuffer]
  | .getPixel _ _ => [.ok, .outOfBounds, .noBuffer]
  | .flipVertically => [.ok, .noBuffer]
  | .drawLine _ _ _ _ _ => [.ok, .noBuffer]
  | .encode => [.ok, .ioError, .noBuffer]
  | .write _ => [.ok, .ioError, .noBuffer]
  | _ => []

/-- The bits of a command word that its format reads, by opcode (R71, R73). -/
def readMask (w : CommandWord) : CommandWord :=
  if opField w = 0x01 then 0x00000000000000FFFFFFFFFF
  else if opField w = 0x02 then 0xFFFFFF00000000FFFFFFFFFF
  else if opField w = 0x03 then 0x00000000000000FFFFFFFFFF
  else if opField w = 0x05 then 0xFFFFFFFFFFFFFFFFFFFFFFFF
  else if opField w = 0x07 then 0x0000000000000000000001FF
  else 0x0000000000000000000000FF

end Sys2Proof

namespace Sys2Proof.Machine

/-! ### Widths and the invariant -/

/-- The encoder's registers lie in their widths: 30, 30, 32, 32 and 8 bits (R26, R29). -/
abbrev EncoderRegs.fits (e : EncoderRegs) : Prop :=
  e.npixels < 2 ^ 30 ∧ e.curpix < 2 ^ 30 ∧ e.chunkstart < 2 ^ 32 ∧ e.curbyte < 2 ^ 32 ∧ e.runLength < 2 ^ 8

/-- A value of a signed 19-bit register (`ERR_W`, R8, R28). -/
abbrev fits19 (v : Int) : Prop := -262144 ≤ v ∧ v ≤ 262143

/-- The rasterizer's registers lie in 19 signed bits (R28, R31). -/
abbrev LineRegs.fits (r : LineRegs) : Prop :=
  fits19 r.x0 ∧ fits19 r.y0 ∧ fits19 r.x1 ∧ fits19 r.y1 ∧ fits19 r.dx ∧ fits19 r.dy ∧ fits19 r.derr ∧ fits19 r.err ∧
    fits19 r.x ∧ fits19 r.y ∧ fits19 r.ystep

/-- The scratch row holds at most the longest row, and the row counter lies in 15 bits (R32). -/
abbrev FlipRegs.fits (f : FlipRegs) : Prop := f.scratch.length ≤ Config.maxDim * Config.bpp ∧ f.j < 2 ^ 15

/-- What holds of the machine between steps. -/
structure State.Inv (s : State) : Prop where
  /-- The memory is in canonical form (log 6). -/
  memCanonical : Memory.wf s.mem
  /-- Every listed byte lies inside `MEM` (R33, R34). -/
  memInside : ∀ c ∈ s.mem, c.1 < s.memSize
  /-- Without a buffer both dimensions are 0 (R21). -/
  noBuffer : s.alloc = false → s.width = 0 ∧ s.height = 0
  /-- With a buffer both dimensions are 1 to 32767 (R21). -/
  buffer : s.alloc = true → 1 ≤ s.width.toNat ∧ s.width.toNat ≤ Config.maxDim ∧
    1 ≤ s.height.toNat ∧ s.height.toNat ≤ Config.maxDim
  /-- `LAST` is a code that exists (R200). -/
  lastIsCode : s.last.toNat ≤ 5
  /-- The response last driven and `STATUS` agree (R208). -/
  rspAgrees : ∀ r, s.rsp = some r → s.last = r.code.toBits ∧ (r.code.isFatal = true → s.fatal = true)
  /-- An idle core has nothing to issue (log 8). -/
  idleHasNothing : s.phase = .idle → s.todo = []
  /-- What a busy core has to issue is well-formed (log 8). -/
  todoWellFormed : ∀ e ∈ s.todo, e.wf = true
  /-- The working registers lie in their widths (R29, R31, R32). -/
  encFits : s.enc.fits
  lineFits : s.line.fits
  flipFits : s.flip.fits

/-! ### How a command ends, and what it keeps -/

/-- The command that started in `s` has ended in `t` with a code and data (R208). -/
structure Ended (s t : State) (code : Code) (data : BitVec 24) : Prop where
  last  : t.last = code.toBits
  fatal : t.fatal = (s.fatal || code.isFatal)
  rsp   : t.rsp = some { code := code, data := data }
  phase : t.phase = .idle
  todo  : t.todo = []

/-- `WIDTH`, `HEIGHT`, `ALLOC` are kept. -/
structure KeepsDimensions (s t : State) : Prop where
  width  : t.width = s.width
  height : t.height = s.height
  alloc  : t.alloc = s.alloc

/-- What the environment holds is kept: the sink's answers and what the host still presents. -/
structure KeepsEnvironment (s t : State) : Prop where
  sink   : t.sinkFailAt = s.sinkFailAt
  inputs : t.inputs = s.inputs

/-- All the environment can see of a state (R241) is the same, and so is the memory. -/
structure SameVisible (s t : State) : Prop where
  width  : t.width = s.width
  height : t.height = s.height
  status : t.status = s.status
  phase  : t.phase = s.phase
  mem    : t.mem = s.mem
  rsp    : t.rsp = s.rsp
  stream : t.stream = s.stream

/-! ### The picture as pixels -/

/-- `Pix(i)` as a colour (R14, R35). -/
def State.pixel (s : State) (i : Nat) : Colour := colourOfBytes (s.bytesAt (3 * i) 3)

/-- The pixels in scan order, `Pix(0)` to `Pix(npixels-1)` (R35). -/
def State.pixels (s : State) : List Colour := (List.range s.npix).map s.pixel

/-- The state after a number of `flipVertically` commands, if each of them has a next state. -/
def State.flips (s : State) : Nat → Option State
  | 0 => some s
  | n + 1 =>
    match s.flips n with
    | none => none
    | some t =>
      match exec .flipVertically t with
      | .next u => some u
      | _ => none

/-! ### The chunk rule (R129) -/

/-- The chunk that starts a non-empty rest of the image: raw or not, and its length `L` (R129). With `m = min(128, rem)`:
(a) one pixel left is a raw packet of 1; (b) two equal pixels start a run, as long as the pixels are equal, at most `m`;
(c) else a raw packet up to the least `k` in 2 to `m-1` with pixel `k-1` equal to pixel `k`, which it stops one short of,
or of `m` pixels if there is no such `k`. -/
def chunkOf : List Colour → Bool × Nat
  | [] => (true, 0)
  | [_] => (true, 1)
  | p :: q :: rest =>
    let ps := p :: q :: rest
    let m := min 128 ps.length
    if p = q then (false, ((ps.take m).takeWhile (fun c => c == p)).length)
    else
      (true, match (List.range m).find? (fun k => decide (2 ≤ k) && (ps[k - 1]? == ps[k]?)) with
        | some k => k - 1
        | none => m)

/-- The packets of an image, chunk by chunk (R129); the first argument bounds their number. -/
def rlePackets : Nat → List Colour → List Packet
  | 0, _ => []
  | _ + 1, [] => []
  | n + 1, p :: ps =>
    let c := chunkOf (p :: ps)
    { isRun := !c.1, count := c.2, triples := if c.1 then (p :: ps).take c.2 else [p] } ::
      rlePackets n ((p :: ps).drop c.2)

/-- The bytes of a packet: the count byte, then its triples (R79, R80). -/
def packetBytes (p : Packet) : List Byte :=
  (if p.isRun then runCountByte p.count else rawCountByte p.count) :: p.triples.flatMap colourBytes

/-- `RLE` of a pixel sequence by the chunk rule (R129). -/
def rleOf (ps : List Colour) : List Byte := (rlePackets ps.length ps).flatMap packetBytes

/-- The element that emits a packet. -/
def packetElement (p : Packet) : StreamElement := if p.isRun then .runPacket p.count else .rawPacket p.count

/-- The elements of the stream of `write(1)`, in order (R86). -/
def writeRlePlan (s : State) : List StreamElement :=
  .tgaHeader true :: (rlePackets s.npix s.pixels).map packetElement ++ [.tgaTrailer]

/-! ### The line -/

/-- The rasterizer's registers after `t` positions of the walk (R170). -/
def LineRegs.after : Nat → LineRegs → LineRegs
  | 0, r => r
  | t + 1, r => LineRegs.after t r.advance

/-- The attempts of `drawLine`, in order (R170, R175). -/
def lineAttempts (x0 y0 x1 y1 : Int) : List (Int × Int) :=
  let r := LineRegs.setup x0 y0 x1 y1 Colour.zero
  (List.range r.positions).map fun t => (r.after t).point

/-- `c(t)` of R178. -/
def LineRegs.secondarySteps (r : LineRegs) (t : Nat) : Int :=
  if r.dx = 0 then 0 else (2 * |r.dy| * t + r.dx - 1) / (2 * r.dx)

/-- The points of a segment by the closed form of R178, from the working values after steps 1 and 2. -/
def segmentPoints (x0 y0 x1 y1 : Int) : List (Int × Int) :=
  let r := LineRegs.setup x0 y0 x1 y1 Colour.zero
  (List.range r.positions).map fun t =>
    let y := r.y0 + r.ystep * r.secondarySteps t
    if r.steep then (y, r.x0 + t) else (r.x0 + t, y)

end Sys2Proof.Machine
end

