-- ==== Sys2Proof/Certificates/Slice0/Obligations.lean ====
section
/-! DEFINITION. The statements for the provers, each from the numbered rules of spec/. -/

open Sys2Proof Sys2Proof.Machine

/-! ### The machine -/

/-- R44, R230: what reset leaves. That the reset core has nothing presented to it and so stays as it is, is the model's own
choice (log 2). -/
def Obligations.ResetLeavesNoBufferAndIdle : Prop :=
  State.reset.width = 0 ∧ State.reset.height = 0 ∧ State.reset.status = 0 ∧ State.reset.phase = .idle ∧
    State.reset.mem = [] ∧ State.reset.memSize = 0 ∧ State.reset.stream = [] ∧ step State.reset = .next State.reset

/-- The invariant holds at reset (R21, R34, R44). That the working registers lie in their widths there rests on the model's
choice of 0 for them (log 4). -/
def Obligations.ResetMeetsTheInvariant : Prop := State.reset.Inv

/-- Every step keeps the invariant (R21, R29, R31, R34, R54, R208). -/
def Obligations.StepKeepsTheInvariant : Prop :=
  ∀ s t : State, s.Inv → step s = .next t → t.Inv

/-- From an idle core, whatever its registers, memory and inputs, a step always ends, in a next state, and the core is idle
again: no command faults or hangs (R25, R54, R131, R183, R206). That none hangs rests on the host's duty of R240: the sink
answers every offered byte with accept or refuse. A sink that never answers, with which the core waits for ever (U15), is not
modelled (log 3, unsafe for such a sink). -/
def Obligations.IdleStepAlwaysAnswers : Prop :=
  ∀ s : State, s.phase = .idle → ∃ t, step s = .next t ∧ t.phase = .idle

/-- R43, R44: a reset presented to an idle core puts it in the reset state. Of that state the spec gives the dimensions,
`STATUS`, `PHASE`, the empty memory and that no stream is open. The rest is the model's choice: the working registers hold 0,
which R44 leaves unspecified (unsafe, log 4, log 11); no response is held and the stream is the empty one (log 12); the sink's
answers are none (log 3) and nothing is left to issue (log 8). What the host still presents stays (log 11), and so does the
model's own count of free draws (log 19). -/
def Obligations.ResetInputIsTaken : Prop :=
  ∀ (s : State) (rest : List Input), s.phase = .idle → s.inputs = .reset :: rest →
    step s = .next { State.reset with inputs := rest, freeCount := s.freeCount }

/-- R241, R242: an idle core to which nothing is presented stays as it is. -/
def Obligations.IdleCoreStaysUnchanged : Prop :=
  ∀ s : State, s.phase = .idle → s.inputs = [] → step s = .next s

/-- R25, R38, R40: a presented word that decodes runs as that instruction: it leaves the channel, `PHASE` becomes `BUSY`,
and the sink's answers to it become the current ones. -/
def Obligations.StepRunsTheAcceptedCommand : Prop :=
  ∀ (s : State) (w : CommandWord) (failAt : Option Nat) (rest : List Input) (i : Instr),
    s.phase = .idle → s.inputs = .command w failAt :: rest → decode (.command w) = .ok i →
      i.wf = true ∧ step s = exec i { s with phase := .busy, sinkFailAt := failAt, inputs := rest }

/-- The model's own convention (log 8): a busy core runs the next element it has to issue, and ends its command when none
is left. -/
def Obligations.StepRunsTheNextElement : Prop :=
  ∀ s : State, s.phase = .busy →
    (∀ e rest, s.todo = e :: rest → step s = exec e.toInstr { s with todo := rest }) ∧
    (s.todo = [] → ∃ t, step s = .next t ∧ Ended s t .ok 0 ∧ KeepsDimensions s t ∧ t.mem = s.mem ∧ t.stream = s.stream)

/-- R205 (decisions D10, D28 of the spec): `IllegalCommand` is answered exactly when `OP` is 0x00 or 0x08 to 0xFF; nothing changes but `LAST` (and what the
acceptance and the response themselves write). -/
def Obligations.IllegalOpcodeIsAnswered : Prop :=
  ∀ (s : State) (w : CommandWord) (failAt : Option Nat) (rest : List Input),
    s.phase = .idle → s.inputs = .command w failAt :: rest →
      ((w.toNat % 256 = 0 ∨ 8 ≤ w.toNat % 256) →
        step s = .next { s with status := statusOf s.alloc 5 s.fatal, phase := .idle, todo := [], inputs := rest,
                                sinkFailAt := failAt, rsp := some { code := .illegalCommand, data := 0 } }) ∧
      ((1 ≤ w.toNat % 256 ∧ w.toNat % 256 ≤ 7) →
        ∀ t r, step s = .next t → t.rsp = some r → r.code ≠ .illegalCommand)

/-- R205, R206, R208 (decisions D11, D15, D27 of the spec; R206 is marked there as derived from R201 to R205): every accepted command word is answered in one step by the epilogue: `LAST` and `FATAL` by the code, the response
with data 0 unless a `getPixel` succeeded, `PHASE` idle; with one of the codes R206 gives the command, or `IllegalCommand`
where the word is none. That a stream command is answered at all rests on a sink that answers every offered byte (R240,
log 3). -/
def Obligations.EveryCommandEndsInTheEpilogue : Prop :=
  ∀ (s : State) (w : CommandWord) (failAt : Option Nat) (rest : List Input),
    s.phase = .idle → s.inputs = .command w failAt :: rest →
      ∃ t code data, step s = .next t ∧ Ended s t code data ∧ t.inputs = rest ∧ t.sinkFailAt = failAt ∧
        (data ≠ 0 → code = .ok ∧ ∃ x y, decodeCommand w = .ok (.getPixel x y)) ∧
        (∀ i, decodeCommand w = .ok i → code ∈ i.codes) ∧
        (∀ r, decodeCommand w = .error r → code = .illegalCommand)

/-- R204 (decisions D10, D12 of the spec): without a buffer the six commands answer `NoBuffer`, emit nothing and change
nothing else; with a buffer they never do. That `encode` and `write` leave the empty stream with which R41 lets each of them
begin, and the other commands the stream before, is the model's choice (log 12). -/
def Obligations.NoBufferIsAnswered : Prop :=
  ∀ (i : Instr) (s : State), i.isCommand = true → (∀ w h, i ≠ .create w h) →
    (s.alloc = false →
      exec i s = .next { s with status := statusOf false 4 s.fatal, phase := .idle, todo := [],
                                rsp := some { code := .noBuffer, data := 0 },
                                stream := if i.isStreamCommand then [] else s.stream }) ∧
    (s.alloc = true → ∀ t r, exec i s = .next t → t.rsp = some r → r.code ≠ .noBuffer)

/-- R22, R211: once set, `FATAL` stays set over every step that is not a reset. -/
def Obligations.FatalBitIsSticky : Prop :=
  ∀ s t : State, step s = .next t → s.fatal = true →
    t.fatal = true ∨ (s.phase = .idle ∧ ∃ rest, s.inputs = .reset :: rest)

/-- R21, R34: no instruction but `create` changes `WIDTH`, `HEIGHT` or `ALLOC`, nor, so, the length of `MEM`. -/
def Obligations.OnlyCreateChangesTheDimensions : Prop :=
  ∀ (i : Instr) (s t : State), (∀ w h, i ≠ .create w h) → exec i s = .next t →
    KeepsDimensions s t ∧ t.memSize = s.memSize

/-- R23, U4, U5: every command completes from every state, and nothing it leaves that can be seen depends on what the
working registers held when it started. That a stream command completes rests on a sink that answers every offered byte
(R240, log 3). -/
def Obligations.ResultsIgnoreTheWorkingRegisters : Prop :=
  ∀ (i : Instr) (s : State) (e : EncoderRegs) (l : LineRegs) (f : FlipRegs), i.isCommand = true →
    ∃ t u, exec i s = .next t ∧ exec i { s with enc := e, line := l, flip := f } = .next u ∧ SameVisible t u

/-- R9: a buffer always fits the capacity, whatever the capacity is. -/
def Obligations.BufferFitsTheCapacity : Prop := ∀ s : State, s.Inv → s.memSize ≤ Config.memBytes

/-! ### Encodings -/

/-- Every well-formed instruction decodes from its encoding, with every operand. -/
def Obligations.DecodeOfEncodeIsTheInstruction : Prop :=
  ∀ i : Instr, i.wf = true → decode (encode i) = .ok i

/-- What the decoder answers is well-formed (R74, R78). -/
def Obligations.DecodedInstructionIsWellFormed : Prop :=
  ∀ (e : Encoding) (i : Instr), decode e = .ok i → i.wf = true

/-- R73 (decision D28 of the spec): every field a format does not read is ignored, and the opcode alone selects the
command: which of the seven a word is, and whether it is one. -/
def Obligations.IgnoredFieldsHaveNoEffect : Prop :=
  ∀ w : CommandWord, decodeCommand w = decodeCommand (w &&& readMask w) ∧
    ((∃ i, decodeCommand w = .ok i) ↔ 1 ≤ w.toNat % 256 ∧ w.toNat % 256 ≤ 7) ∧
    ((∃ a b, decodeCommand w = .ok (.create a b)) ↔ w.toNat % 256 = 1) ∧
    ((∃ x y c, decodeCommand w = .ok (.setPixel x y c)) ↔ w.toNat % 256 = 2) ∧
    ((∃ x y, decodeCommand w = .ok (.getPixel x y)) ↔ w.toNat % 256 = 3) ∧
    (decodeCommand w = .ok .flipVertically ↔ w.toNat % 256 = 4) ∧
    ((∃ x0 y0 x1 y1 c, decodeCommand w = .ok (.drawLine x0 y0 x1 y1 c)) ↔ w.toNat % 256 = 5) ∧
    (decodeCommand w = .ok .encode ↔ w.toNat % 256 = 6) ∧
    ((∃ r, decodeCommand w = .ok (.write r)) ↔ w.toNat % 256 = 7)

/-- Words written out in the spec's examples decode to the commands they stand for (R71, R72, R74). -/
def Obligations.WordsOfTheSpecDecode : Prop :=
  decode (.command 0x000000000000000002000301) = .ok (.create 3 2) ∧
    decode (.command 0x332211000000000001000202) =
      .ok (.setPixel 2 1 { blue := 0x11, green := 0x22, red := 0x33 }) ∧
    decode (.command 0x000000000000000001000203) = .ok (.getPixel 2 1) ∧
    decode (.command 0x000000000000000000000004) = .ok .flipVertically ∧
    decode (.command 0x00FF00000100020001FFFD05) =
      .ok (.drawLine (-3) 1 2 1 { blue := 0, green := 255, red := 0 }) ∧
    decode (.command 0x000000000000000000000006) = .ok .encode ∧
    decode (.command 0x000000000000000000FFFE07) = .ok (.write false) ∧
    decode (.command 0x000000000000000000000307) = .ok (.write true) ∧
    decode (.stream [0x7F]) = .ok (.rawPacket 128) ∧ decode (.stream [0x81]) = .ok (.runPacket 2)

/-- R81 (which the spec marks as derived from R80): the two spellings of the run count byte are the same number, over the whole range. -/
def Obligations.RunCountByteSpellingsAgree : Prop :=
  (∀ n : Nat, 1 ≤ n → n ≤ 128 →
    runCountByte n = rawCountByte n ||| 0x80 ∧ (rawCountByte n).getLsbD 7 = false ∧ (runCountByte n).toNat = n + 127) ∧
    rawCountByte 1 = 0x00 ∧ rawCountByte 128 = 0x7F ∧ runCountByte 2 = 0x81 ∧ runCountByte 128 = 0xFF

/-! ### PixelBuffer -/

/-- R100, R101: a valid `create` gives a buffer of its dimensions whose every byte reads 0. All the rest is kept; of the
working registers that is the model's choice, unsafe, since the spec lets them hold any value between commands (U4, U5,
log 5), and of the stream too (log 12). -/
def Obligations.CreateZeroFillsTheBuffer : Prop :=
  ∀ (s : State) (w h : Int), 1 ≤ w → w ≤ 32767 → 1 ≤ h → h ≤ 32767 →
    ∃ t, exec (.create w h) s = .next t ∧
      t = { s with width := BitVec.ofInt 16 w, height := BitVec.ofInt 16 h, mem := [], phase := .idle, todo := [],
                   status := statusOf true 0 s.fatal, rsp := some { code := .ok, data := 0 } } ∧
      (t.width.toNat : Int) = w ∧ (t.height.toNat : Int) = h ∧ (t.memSize : Int) = w * h * 3 ∧
      (∀ a n, a + n ≤ t.memSize → t.memRead a n = List.replicate n 0) ∧
      ∀ c ∈ t.pixels, c = { blue := 0, green := 0, red := 0 }

/-- R201: `create` answers `InvalidDimension` exactly when a dimension is not positive; then `FATAL` is set and the buffer,
if there is one, is kept. -/
def Obligations.CreateRejectsNonPositiveDimensions : Prop :=
  ∀ (s : State) (w h : Int),
    ((w ≤ 0 ∨ h ≤ 0) →
      exec (.create w h) s = .next { s with status := statusOf s.alloc 1 true, phase := .idle, todo := [],
                                            rsp := some { code := .invalidDimension, data := 0 } }) ∧
    ((0 < w ∧ 0 < h) → ∀ t r, exec (.create w h) s = .next t → t.rsp = some r → r.code = .ok)

/-- R102: in bounds, `setPixel` stores blue, green, red at `(x + y*WIDTH)*3`, and changes no other byte and no dimension.
That the working registers of the other units are kept is the model's choice, unsafe (U4, U5, log 5), and so is that the
stream is (log 12). -/
def Obligations.SetPixelStoresThreeBytes : Prop :=
  ∀ (s : State) (x y : Nat) (c : Colour), s.alloc = true → x < s.width.toNat → y < s.height.toNat →
    ∃ t, exec (.setPixel x y c) s = .next t ∧ Ended s t .ok 0 ∧ KeepsDimensions s t ∧ KeepsEnvironment s t ∧
      t.enc = s.enc ∧ t.line = s.line ∧ t.flip = s.flip ∧ t.stream = s.stream ∧
      (x + y * s.width.toNat) * 3 + 3 ≤ s.memSize ∧
      t.memRead ((x + y * s.width.toNat) * 3) 3 = [c.blue, c.green, c.red] ∧
      ∀ a, (a < (x + y * s.width.toNat) * 3 ∨ (x + y * s.width.toNat) * 3 + 3 ≤ a) → t.byteAt a = s.byteAt a

/-- R203: with a buffer, `setPixel` and `getPixel` answer `OutOfBounds` exactly when a coordinate is negative or not below
its dimension, and change nothing else; `drawLine` never answers it. -/
def Obligations.OutOfBoundsIsAnswered : Prop :=
  ∀ (s : State) (x y : Int) (c : Colour),
    (∀ i, s.alloc = true → (i = .setPixel x y c ∨ i = .getPixel x y) →
      ((x < 0 ∨ y < 0 ∨ x ≥ s.width.toNat ∨ y ≥ s.height.toNat) →
        exec i s = .next { s with status := statusOf true 2 s.fatal, phase := .idle, todo := [],
                                  rsp := some { code := .outOfBounds, data := 0 } }) ∧
      ((0 ≤ x ∧ 0 ≤ y ∧ x < s.width.toNat ∧ y < s.height.toNat) →
        ∀ t r, exec i s = .next t → t.rsp = some r → r.code = .ok)) ∧
    ∀ x1 y1 t r, exec (.drawLine x y x1 y1 c) s = .next t → t.rsp = some r → r.code ≠ .outOfBounds

/-- R104: in bounds, `getPixel` answers `{red, green, blue}` of the three bytes stored at the pixel, and changes nothing
but `LAST` and the response. -/
def Obligations.GetPixelAnswersTheStoredColour : Prop :=
  ∀ (s : State) (x y : Nat), s.alloc = true → x < s.width.toNat → y < s.height.toNat →
    exec (.getPixel x y) s =
      .next { s with status := statusOf true 0 s.fatal, phase := .idle, todo := [],
                     rsp := some { code := .ok,
                                   data := s.byteAt ((x + y * s.width.toNat) * 3 + 2) ++
                                     s.byteAt ((x + y * s.width.toNat) * 3 + 1) ++
                                     s.byteAt ((x + y * s.width.toNat) * 3) } }

/-- R60, R102, R104: what `setPixel` wrote is what `getPixel` reads at that pixel, and at every other pixel `getPixel`
answers what it answered before. -/
def Obligations.GetPixelReadsWhatSetPixelWrote : Prop :=
  ∀ (s : State) (x y : Nat) (c : Colour), s.alloc = true → x < s.width.toNat → y < s.height.toNat →
    ∃ t, exec (.setPixel x y c) s = .next t ∧
      (∃ u, exec (.getPixel x y) t = .next u ∧
        u.rsp = some { code := .ok, data := c.red ++ c.green ++ c.blue }) ∧
      ∀ px py : Nat, px < s.width.toNat → py < s.height.toNat → ¬(px = x ∧ py = y) →
        ∃ u v, exec (.getPixel px py) t = .next u ∧ exec (.getPixel px py) s = .next v ∧ u.rsp = v.rsp

/-- R106 (which the spec marks as derived from R105): after a flip the pixel at (x, y) is the one that was at (x, HEIGHT-1-y), byte for byte over the row; nothing
outside the buffer and no dimension changes. That the working registers of the other units are kept is the model's choice,
unsafe (U4, log 5), and so is that the stream is (log 12). -/
def Obligations.FlipReversesTheRows : Prop :=
  ∀ s : State, s.alloc = true →
    ∃ t, exec .flipVertically s = .next t ∧ Ended s t .ok 0 ∧ KeepsDimensions s t ∧ KeepsEnvironment s t ∧
      t.enc = s.enc ∧ t.line = s.line ∧ t.stream = s.stream ∧
      (∀ x y : Nat, x < s.width.toNat → y < s.height.toNat →
        t.pixel (x + y * s.width.toNat) = s.pixel (x + (s.height.toNat - 1 - y) * s.width.toNat)) ∧
      (∀ y k : Nat, y < s.height.toNat → k < s.rowBytes →
        t.byteAt (y * s.rowBytes + k) = s.byteAt ((s.height.toNat - 1 - y) * s.rowBytes + k)) ∧
      ∀ a, s.memSize ≤ a → t.byteAt a = s.byteAt a

/-- R107: an even number of flips restores the memory and an odd number leaves the once-flipped memory, which is the
original one only when every row y equals row HEIGHT-1-y. -/
def Obligations.FlipTwiceRestoresTheBuffer : Prop :=
  ∀ s : State, s.alloc = true → Memory.wf s.mem →
    ∃ t u, exec .flipVertically s = .next t ∧ exec .flipVertically t = .next u ∧ u.mem = s.mem ∧
      (∀ n, ∃ v w, s.flips (2 * n) = some v ∧ v.mem = s.mem ∧ s.flips (2 * n + 1) = some w ∧ w.mem = t.mem) ∧
      (t.mem = s.mem ↔
        ∀ y k : Nat, y < s.height.toNat → k < s.rowBytes →
          s.byteAt (y * s.rowBytes + k) = s.byteAt ((s.height.toNat - 1 - y) * s.rowBytes + k))

/-! ### The line -/

/-- R184 (which the spec marks as derived from R170 and R175): after `drawLine` a pixel holds the colour if it is one of the attempted points of R178 and holds its old value
otherwise; every other byte and the dimensions are kept; drawing the segment again changes no byte. Which points these are
rests on the initial error 0, the spec's decision D20 (log 14). That the working registers of the other units are kept is the
model's choice, unsafe (U4, U5, log 5), and so is that the stream is (log 12). -/
def Obligations.DrawLinePaintsTheSegment : Prop :=
  ∀ (s : State) (x0 y0 x1 y1 : Int) (c : Colour), s.alloc = true →
    ∃ t, exec (.drawLine x0 y0 x1 y1 c) s = .next t ∧ Ended s t .ok 0 ∧ KeepsDimensions s t ∧ KeepsEnvironment s t ∧
      t.enc = s.enc ∧ t.flip = s.flip ∧ t.stream = s.stream ∧
      (∀ px py : Nat, px < s.width.toNat → py < s.height.toNat →
        (((px : Int), (py : Int)) ∈ segmentPoints x0 y0 x1 y1 → t.pixel (px + py * s.width.toNat) = c) ∧
        (((px : Int), (py : Int)) ∉ segmentPoints x0 y0 x1 y1 →
          t.pixel (px + py * s.width.toNat) = s.pixel (px + py * s.width.toNat))) ∧
      (∀ a, s.memSize ≤ a → t.byteAt a = s.byteAt a) ∧
      ∃ u, exec (.drawLine x0 y0 x1 y1 c) t = .next u ∧ ∀ a, u.byteAt a = t.byteAt a

/-- R178 (which the spec marks as derived from R170 and R31): the loop's attempts are the points of the closed form: at distance `t` along the dominant axis the secondary
coordinate has moved by `|dy|*t/dx` rounded to the nearest integer, a tie toward the start; the first and the last are the
working endpoints, so both given endpoints are attempted. It rests on the initial error 0, the spec's decision D20 (log 14). -/
def Obligations.AttemptsAreTheRoundedLine : Prop :=
  ∀ x0 y0 x1 y1 : Int,
    lineAttempts x0 y0 x1 y1 = segmentPoints x0 y0 x1 y1 ∧
    (x0, y0) ∈ lineAttempts x0 y0 x1 y1 ∧ (x1, y1) ∈ lineAttempts x0 y0 x1 y1 ∧
    ∀ (r : LineRegs), r = LineRegs.setup x0 y0 x1 y1 Colour.zero →
      r.secondarySteps 0 = 0 ∧ r.secondarySteps r.dx.toNat = |r.dy| ∧ (r.dx = 0 → r.dy = 0) ∧
      ∀ t : Nat, 0 < r.dx → (t : Int) ≤ r.dx →
        -r.dx ≤ 2 * (r.dx * r.secondarySteps t - |r.dy| * t) ∧ 2 * (r.dx * r.secondarySteps t - |r.dy| * t) < r.dx

/-- R177 (which the spec marks as derived from R170): `drawLine` makes `max(|x1-x0|, |y1-y0|) + 1` attempts, one at each position of the dominant axis in rising
order, and never two at one position. -/
def Obligations.OneAttemptPerDominantPosition : Prop :=
  ∀ x0 y0 x1 y1 : Int,
    ((lineAttempts x0 y0 x1 y1).length : Int) = max |x1 - x0| |y1 - y0| + 1 ∧
    (isSteep x0 y0 x1 y1 = false →
      (lineAttempts x0 y0 x1 y1).map Prod.fst =
        (List.range (|x1 - x0| + 1).toNat).map (fun t => min x0 x1 + (t : Int))) ∧
    (isSteep x0 y0 x1 y1 = true →
      (lineAttempts x0 y0 x1 y1).map Prod.snd =
        (List.range (|y1 - y0| + 1).toNat).map (fun t => min y0 y1 + (t : Int)))

/-- R179 (which the spec marks as derived from R170): exchanging the endpoints changes nothing: the same working registers, the same attempts in the same order, which
is that of the rising dominant coordinate, and the same outcome. -/
def Obligations.EndpointOrderDoesNotMatter : Prop :=
  ∀ (s : State) (x0 y0 x1 y1 : Int) (c : Colour),
    LineRegs.setup x0 y0 x1 y1 c = LineRegs.setup x1 y1 x0 y0 c ∧
    lineAttempts x0 y0 x1 y1 = lineAttempts x1 y1 x0 y0 ∧
    (lineAttempts x0 y0 x1 y1).Pairwise (fun p q => if isSteep x0 y0 x1 y1 then p.2 < q.2 else p.1 < q.1) ∧
    exec (.drawLine x0 y0 x1 y1 c) s = exec (.drawLine x1 y1 x0 y0 c) s

/-- R180 (which the spec marks as derived from R170 and R31): consecutive attempts differ by exactly 1 in the dominant coordinate and by 0 or 1 in the secondary one. -/
def Obligations.SegmentHasNoGaps : Prop :=
  ∀ (x0 y0 x1 y1 : Int) (k : Nat) (p q : Int × Int),
    (lineAttempts x0 y0 x1 y1)[k]? = some p → (lineAttempts x0 y0 x1 y1)[k + 1]? = some q →
      if isSteep x0 y0 x1 y1 then q.2 = p.2 + 1 ∧ |q.1 - p.1| ≤ 1 else q.1 = p.1 + 1 ∧ |q.2 - p.2| ≤ 1

/-- R181: a zero-length segment attempts exactly its one point; out of bounds, nothing is written. -/
def Obligations.ZeroLengthSegmentIsOnePixel : Prop :=
  ∀ (s : State) (x y : Int) (c : Colour), s.alloc = true →
    lineAttempts x y x y = [(x, y)] ∧ isSteep x y x y = false ∧
    (LineRegs.setup x y x y c).dx = 0 ∧ (LineRegs.setup x y x y c).dy = 0 ∧
    (LineRegs.setup x y x y c).advance.err = 0 ∧
    ∃ t, exec (.drawLine x y x y c) s = .next t ∧
      (s.outOfBounds x y = true → t.mem = s.mem) ∧
      (s.outOfBounds x y = false → ∃ u, exec (.setPixel x y c) s = .next u ∧ t.mem = u.mem)

/-- R31 (which the spec marks as derived from R170 and R74): on operands of 16 bits the error accumulator stays in its bounds at every position, also before the subtraction,
and every working register in 19 signed bits. It rests on the initial error 0, the spec's decision D20 (log 14). -/
def Obligations.RasterizerRegistersStayInBounds : Prop :=
  ∀ (x0 y0 x1 y1 : Int) (c : Colour) (t : Nat) (r : LineRegs),
    (Instr.drawLine x0 y0 x1 y1 c).wf = true → t ≤ (LineRegs.setup x0 y0 x1 y1 c).positions →
    r = (LineRegs.setup x0 y0 x1 y1 c).after t →
      0 ≤ r.dx ∧ r.dx ≤ 65535 ∧ |r.dy| ≤ r.dx ∧ (0 < r.dx → -r.dx < r.err ∧ r.err ≤ r.dx) ∧ (r.dx = 0 → r.err = 0) ∧
      r.err + r.derr ≤ 3 * r.dx ∧ r.fits

/-- R182: the attempts of the document's three examples. They rest on the initial error 0, the spec's decision D20
(log 14). -/
def Obligations.DocumentLinesAreReproduced : Prop :=
  lineAttempts 0 0 4 0 = [(0, 0), (1, 0), (2, 0), (3, 0), (4, 0)] ∧
    lineAttempts 0 0 0 4 = [(0, 0), (0, 1), (0, 2), (0, 3), (0, 4)] ∧
    lineAttempts 0 0 4 4 = [(0, 0), (1, 1), (2, 2), (3, 3), (4, 4)]

/-! ### The encoder -/

/-- R129 (which the spec marks as derived from R121): with a sink that accepts every byte, `encode` answers `OK` and its stream is the packets of the chunk rule. -/
def Obligations.EncodeFollowsTheChunkRule : Prop :=
  ∀ s : State, s.alloc = true → s.sinkFailAt = none →
    ∃ t, exec .encode s = .next t ∧ Ended s t .ok 0 ∧ t.stream = rleOf s.pixels

/-- R128 (which the spec marks as derived from R126 and R127): decoding the stream of `encode` gives the pixels of the memory back, in scan order. -/
def Obligations.DecodedStreamIsThePicture : Prop :=
  ∀ s : State, s.alloc = true → s.sinkFailAt = none →
    ∃ t, exec .encode s = .next t ∧ decodeStreamPixels t.stream = some s.pixels

/-- R126, R127 (which the spec marks as derived from R121, R123 and R124): the stream is a sequence of packets, raw ones of 1 to 128 pixels and run ones of 2 to 128, which cut the
pixel sequence into consecutive pieces with no gap and no overlap; all pixels of a run are its one triple. -/
def Obligations.PacketsPartitionThePicture : Prop :=
  ∀ s : State, s.alloc = true → s.sinkFailAt = none →
    ∃ t ps, exec .encode s = .next t ∧ packetsOf t.stream = some ps ∧ ps.flatMap packetBytes = t.stream ∧
      (∀ p ∈ ps, p.count ≤ 128 ∧ (if p.isRun then 2 ≤ p.count ∧ p.triples.length = 1
        else 1 ≤ p.count ∧ p.triples.length = p.count)) ∧
      (ps.map Packet.count).sum = s.npix ∧ ps.flatMap Packet.pixels = s.pixels

/-- R130 (which the spec marks as derived from R129): a uniform picture of `n` pixels gives `n div 128` full runs, then nothing, a raw packet of one, or one shorter
run. -/
def Obligations.UniformPictureIsRuns : Prop :=
  ∀ (s : State) (p : Colour), s.alloc = true → s.sinkFailAt = none → s.pixels = List.replicate s.npix p →
    ∃ t, exec .encode s = .next t ∧
      t.stream = (List.replicate (s.npix / 128) (0xFF :: colourBytes p)).flatten ++
        (if s.npix % 128 = 0 then []
         else if s.npix % 128 = 1 then 0x00 :: colourBytes p
         else BitVec.ofNat 8 (s.npix % 128 + 127) :: colourBytes p)

/-- R136 (which the spec marks as derived from R129): a picture no two consecutive pixels of which are equal gives raw packets only, of 128 pixels and one of the rest,
and is longer than its raw bytes; no picture gives more than four bytes a pixel. -/
def Obligations.AlternatingPictureIsRawPackets : Prop :=
  ∀ s : State, s.alloc = true → s.sinkFailAt = none →
    ∃ t ps, exec .encode s = .next t ∧ packetsOf t.stream = some ps ∧ t.stream.length ≤ 4 * s.npix ∧
      ((∀ i, i + 1 < s.npix → s.pixel i ≠ s.pixel (i + 1)) →
        (∀ p ∈ ps, p.isRun = false) ∧
        ps.map Packet.count =
          List.replicate (s.npix / 128) 128 ++ (if s.npix % 128 = 0 then [] else [s.npix % 128]) ∧
        t.stream.length = 3 * s.npix + (s.npix + 127) / 128)

/-- R202: `encode` and `write` answer `IOError` exactly when the sink refuses an offered byte; the stream keeps the accepted
bytes, `FATAL` is set, the buffer is unchanged. The stream an accepting sink would have got is that of the same command
with no refusal. -/
def Obligations.RefusedByteEndsInIoError : Prop :=
  ∀ (i : Instr) (s : State) (k : Nat), i.isStreamCommand = true → s.alloc = true → s.sinkFailAt = some k →
    ∃ t u, exec i s = .next t ∧ exec i { s with sinkFailAt := none } = .next u ∧
      t.width = s.width ∧ t.height = s.height ∧ t.mem = s.mem ∧
      (k < u.stream.length → Ended s t .ioError 0 ∧ t.fatal = true ∧ t.stream = u.stream.take k) ∧
      (u.stream.length ≤ k → Ended s t .ok 0 ∧ t.stream = u.stream)

/-- R65: `encode` and `write` change neither the memory nor the dimensions, however they end, and their stream and
response depend on nothing but the buffer at acceptance and the sink's answers. That they keep the working registers of the
other units is the model's choice, unsafe (U4, U5, log 5). -/
def Obligations.StreamCommandsOnlyReadTheBuffer : Prop :=
  ∀ (i : Instr) (s s' : State), i.isStreamCommand = true →
    s'.width = s.width → s'.height = s.height → s'.mem = s.mem → s'.alloc = s.alloc → s'.sinkFailAt = s.sinkFailAt →
    ∃ t t', exec i s = .next t ∧ exec i s' = .next t' ∧ t'.stream = t.stream ∧ t'.rsp = t.rsp ∧
      t.mem = s.mem ∧ KeepsDimensions s t ∧ KeepsEnvironment s t ∧ t.line = s.line ∧ t.flip = s.flip

/-! ### The writer -/

/-- R82, R86, R151: the three streams: the packets alone; header 2, the memory, trailer; header 10, the packets, trailer.
The packets are those of R129, which the spec marks as derived from R121. The seven header fields the document gives no value
are zero, the spec's decision D19 (log 15). -/
def Obligations.StreamsHaveTheirThreeShapes : Prop :=
  ∀ s : State, s.alloc = true → s.sinkFailAt = none →
    ∃ e r w, exec .encode s = .next e ∧ exec (.write false) s = .next r ∧ exec (.write true) s = .next w ∧
      Ended s e .ok 0 ∧ Ended s r .ok 0 ∧ Ended s w .ok 0 ∧ e.stream = rleOf s.pixels ∧
      r.stream =
        [0, 0, 2, 0, 0, 0, 0, 0, 0, 0, 0, 0, s.width.extractLsb' 0 8, s.width.extractLsb' 8 8,
          s.height.extractLsb' 0 8, s.height.extractLsb' 8 8, 24, 0x20] ++ s.bytesAt 0 s.memSize ++
        [0, 0, 0, 0, 0, 0, 0, 0, 0x54, 0x52, 0x55, 0x45, 0x56, 0x49, 0x53, 0x49, 0x4F, 0x4E, 0x2D, 0x58, 0x46, 0x49,
          0x4C, 0x45, 0x2E, 0] ∧
      w.stream =
        [0, 0, 10, 0, 0, 0, 0, 0, 0, 0, 0, 0, s.width.extractLsb' 0 8, s.width.extractLsb' 8 8,
          s.height.extractLsb' 0 8, s.height.extractLsb' 8 8, 24, 0x20] ++ e.stream ++
        [0, 0, 0, 0, 0, 0, 0, 0, 0x54, 0x52, 0x55, 0x45, 0x56, 0x49, 0x53, 0x49, 0x4F, 0x4E, 0x2D, 0x58, 0x46, 0x49,
          0x4C, 0x45, 0x2E, 0]

/-- R152 (which the spec marks as derived from R150): the lengths of the two files; the payload starts at 18 and the trailer is the last 26 bytes.
That the seven header fields the document gives no value are zero is the spec's decision D19 (log 15). -/
def Obligations.FileLengthsAreAsStated : Prop :=
  ∀ s : State, s.alloc = true → s.sinkFailAt = none →
    ∃ e r w, exec .encode s = .next e ∧ exec (.write false) s = .next r ∧ exec (.write true) s = .next w ∧
      r.stream.length = 44 + s.width.toNat * s.height.toNat * 3 ∧ w.stream.length = 44 + e.stream.length ∧
      r.stream.take 18 = headerBytes 2 s.width s.height ∧ w.stream.take 18 = headerBytes 10 s.width s.height ∧
      (w.stream.drop 18).take e.stream.length = e.stream ∧
      r.stream.drop (18 + s.memSize) = trailerBytes ∧ w.stream.drop (18 + e.stream.length) = trailerBytes

/-- R154: the raw and the run-length file of one picture agree in header bytes 0, 1 and 3 to 17 and in the last 26 bytes,
and differ in header byte 2; their payloads are those of `StreamsHaveTheirThreeShapes`. -/
def Obligations.RawAndRleFilesAgreeAroundThePayload : Prop :=
  ∀ s : State, s.alloc = true → s.sinkFailAt = none →
    ∃ r w, exec (.write false) s = .next r ∧ exec (.write true) s = .next w ∧
      r.stream.take 2 = w.stream.take 2 ∧ (r.stream.take 18).drop 3 = (w.stream.take 18).drop 3 ∧
      r.stream[2]? = some 0x02 ∧ w.stream[2]? = some 0x0A ∧
      r.stream.drop (r.stream.length - 26) = w.stream.drop (w.stream.length - 26)

/-! ### Stream elements (the model's own way of running these four rows, log 8) -/

/-- R79, R80: a packet issued at the scan pointer, with its pixels inside the buffer and a sink that accepts, appends its
count byte and its triples and moves the pointer past its pixels; nothing else changes but the encoder's registers. -/
def Obligations.PacketElementsEmitTheirBytes : Prop :=
  ∀ (s : State) (n : Nat), s.alloc = true → s.sinkFailAt = none → 1 ≤ n → n ≤ 128 → s.enc.curpix + n ≤ s.npix →
    (∃ e : EncoderRegs, e.curpix = s.enc.curpix + n ∧
      exec (.rawPacket n) s = .next { s with enc := e, stream := (s.stream ++
        BitVec.ofNat 8 (n - 1) :: ((List.range n).map fun k => s.pixel (s.enc.curpix + k)).flatMap colourBytes) }) ∧
    ∃ e : EncoderRegs, e.curpix = s.enc.curpix + n ∧
      exec (.runPacket n) s = .next { s with enc := e, stream := (s.stream ++
        BitVec.ofNat 8 (n + 127) :: colourBytes (s.pixel s.enc.curpix)) }

/-- R82, R85: the header and trailer elements append their bytes and change nothing else. The seven header fields the
document gives no value are zero, the spec's decision D19 (log 15, unsafe). -/
def Obligations.HeaderAndTrailerElementsEmitTheirBytes : Prop :=
  ∀ (s : State) (r : Bool), s.alloc = true → s.sinkFailAt = none →
    exec (.tgaHeader r) s = .next { s with stream := (s.stream ++
      [0, 0, (if r then 10 else 2), 0, 0, 0, 0, 0, 0, 0, 0, 0, s.width.extractLsb' 0 8, s.width.extractLsb' 8 8,
        s.height.extractLsb' 0 8, s.height.extractLsb' 8 8, 24, 0x20]) } ∧
    exec .tgaTrailer s = .next { s with stream := (s.stream ++
      [0, 0, 0, 0, 0, 0, 0, 0, 0x54, 0x52, 0x55, 0x45, 0x56, 0x49, 0x53, 0x49, 0x4F, 0x4E, 0x2D, 0x58, 0x46, 0x49,
        0x4C, 0x45, 0x2E, 0]) }

/-- R135: an element one of whose bytes the sink refuses ends its command with `IOError`, keeping the bytes accepted before
it. -/
def Obligations.RefusedElementEndsInIoError : Prop :=
  ∀ (e : StreamElement) (s u : State) (k : Nat), s.alloc = true → exec e.toInstr { s with sinkFailAt := none } = .next u →
    s.sinkFailAt = some k → s.stream.length ≤ k → k < u.stream.length →
      ∃ t, exec e.toInstr s = .next t ∧ Ended s t .ioError 0 ∧ KeepsDimensions s t ∧ KeepsEnvironment s t ∧
        t.mem = s.mem ∧ t.stream = u.stream.take k

/-- R79, R80, and of the values past the end of the buffer the model's choice (log 9, log 19): a packet element that counts
more pixels than the buffer has from the scan pointer on completes too. It emits its count byte and as many bytes as it always
does, each byte that exists as it is stored; of the others nothing is said. The scan pointer moves past its pixels where the
sum fits its 30 bits. Nothing else changes but the encoder's registers and the count of free draws. -/
def Obligations.PacketPastTheBufferCompletes : Prop :=
  ∀ (s : State) (n : Nat), s.alloc = true → s.sinkFailAt = none → 1 ≤ n → n ≤ 128 → s.npix < s.enc.curpix + n →
    (∃ (e : EncoderRegs) (bs : List Byte) (c : Nat),
      exec (.rawPacket n) s =
        .next { s with enc := e, stream := s.stream ++ BitVec.ofNat 8 (n - 1) :: bs, freeCount := c } ∧
      bs.length = 3 * n ∧ (∀ k, 3 * s.enc.curpix + k < s.memSize → bs[k]? = some (s.byteAt (3 * s.enc.curpix + k))) ∧
      (s.enc.curpix + n < 2 ^ 30 → e.curpix = s.enc.curpix + n)) ∧
    ∃ (e : EncoderRegs) (bs : List Byte) (c : Nat),
      exec (.runPacket n) s =
        .next { s with enc := e, stream := s.stream ++ BitVec.ofNat 8 (n + 127) :: bs, freeCount := c } ∧
      bs.length = 3 ∧
      (∀ k, k < 3 → 3 * s.enc.curpix + k < s.memSize → bs[k]? = some (s.byteAt (3 * s.enc.curpix + k))) ∧
      (s.enc.curpix + n < 2 ^ 30 → e.curpix = s.enc.curpix + n)

/-- A busy core with stream elements to issue is the model's own state (log 8). One that issues the header, the packets and
the trailer of R86 one by one, with nothing further presented to it, ends as `write(1)` of R150 does as one command, whatever
the sink answers. -/
def Obligations.IssuingTheElementsIsWrite : Prop :=
  ∀ s : State, s.alloc = true → s.inputs = [] →
    ∃ t u, exec (.write true) s = .next t ∧
      Host.Core.run Sys2Proof.core ((writeRlePlan s).length + 1)
        { s with phase := .busy, stream := [], todo := writeRlePlan s, enc := { s.enc with curpix := 0 } } = .next u ∧
      SameVisible t u

/-- The model's choice (log 9), after R207: without a buffer an element emits nothing and ends its command with `NoBuffer`;
the elements left are dropped. -/
def Obligations.ElementWithoutBufferEndsInNoBuffer : Prop :=
  ∀ (e : StreamElement) (s : State), s.alloc = false →
    exec e.toInstr s = .next { s with status := statusOf false 4 s.fatal, phase := .idle, todo := [],
                                      rsp := some { code := .noBuffer, data := 0 } }

/-- R54, R131, R183: no instruction ends in a fault or a refusal, from any state and on any operands, and so no step does:
`IdleStepAlwaysAnswers` says of commands that they also leave the core idle. For a packet past the end of the buffer it rests
on the free values of log 19, and for the emission of bytes on a sink that answers every offered byte (R240, log 3). -/
def Obligations.NoInstructionStops : Prop :=
  (∀ (i : Instr) (s : State), ∃ t, exec i s = .next t) ∧ ∀ s : State, ∃ t, step s = .next t
end

