-- ==== Sys2Proof/Laws/Decode.lean ====
section
/-! SUPPORT. The fields of an assembled command word (R71), and what a 16-bit field carries (R74). -/

namespace Sys2Proof

theorem opField_assemble (op : Byte) (a b c d : BitVec 16) (col : Colour) :
    opField (assemble op a b c d col) = op := by
  ext i hi
  simp only [opField, assemble, BitVec.getElem_extractLsb', BitVec.getLsbD_append]
  simp [show i < 8 by omega]

theorem aField_assemble (op : Byte) (a b c d : BitVec 16) (col : Colour) :
    aField (assemble op a b c d col) = a := by
  ext i hi
  simp only [aField, assemble, BitVec.getElem_extractLsb', BitVec.getLsbD_append]
  simp [show ¬8 + i < 8 by omega, hi]

theorem bField_assemble (op : Byte) (a b c d : BitVec 16) (col : Colour) :
    bField (assemble op a b c d col) = b := by
  ext i hi
  simp only [bField, assemble, BitVec.getElem_extractLsb', BitVec.getLsbD_append]
  simp [show ¬24 + i < 8 by omega, show ¬24 + i - 8 < 16 by omega, show 24 + i - 8 - 16 = i by omega, hi]

theorem cField_assemble (op : Byte) (a b c d : BitVec 16) (col : Colour) :
    cField (assemble op a b c d col) = c := by
  ext i hi
  simp only [cField, assemble, BitVec.getElem_extractLsb', BitVec.getLsbD_append]
  simp [show ¬40 + i < 8 by omega, show ¬40 + i - 8 < 16 by omega, show ¬40 + i - 8 - 16 < 16 by omega,
    show 40 + i - 8 - 16 - 16 = i by omega, hi]

theorem dField_assemble (op : Byte) (a b c d : BitVec 16) (col : Colour) :
    dField (assemble op a b c d col) = d := by
  ext i hi
  simp only [dField, assemble, BitVec.getElem_extractLsb', BitVec.getLsbD_append]
  simp [show ¬56 + i < 8 by omega, show ¬56 + i - 8 < 16 by omega, show ¬56 + i - 8 - 16 < 16 by omega,
    show ¬56 + i - 8 - 16 - 16 < 16 by omega, show 56 + i - 8 - 16 - 16 - 16 = i by omega, hi]

theorem colourField_assemble (op : Byte) (a b c d : BitVec 16) (col : Colour) :
    colourField (assemble op a b c d col) = col := by
  obtain ⟨bl, gr, re⟩ := col
  simp only [colourField, Colour.mk.injEq]
  refine ⟨?_, ?_, ?_⟩ <;> ext i hi <;>
    simp only [assemble, BitVec.getElem_extractLsb', BitVec.getLsbD_append]
  · simp [show ¬72 + i < 8 by omega, show ¬72 + i - 8 < 16 by omega, show ¬72 + i - 8 - 16 < 16 by omega,
      show ¬72 + i - 8 - 16 - 16 < 16 by omega, show ¬72 + i - 8 - 16 - 16 - 16 < 16 by omega,
      show 72 + i - 8 - 16 - 16 - 16 - 16 = i by omega, hi]
  · simp [show ¬80 + i < 8 by omega, show ¬80 + i - 8 < 16 by omega, show ¬80 + i - 8 - 16 < 16 by omega,
      show ¬80 + i - 8 - 16 - 16 < 16 by omega, show ¬80 + i - 8 - 16 - 16 - 16 < 16 by omega,
      show ¬80 + i - 8 - 16 - 16 - 16 - 16 < 8 by omega, show 80 + i - 8 - 16 - 16 - 16 - 16 - 8 = i by omega, hi]
  · simp [show ¬88 + i < 8 by omega, show ¬88 + i - 8 < 16 by omega, show ¬88 + i - 8 - 16 < 16 by omega,
      show ¬88 + i - 8 - 16 - 16 < 16 by omega, show ¬88 + i - 8 - 16 - 16 - 16 < 16 by omega,
      show ¬88 + i - 8 - 16 - 16 - 16 - 16 < 8 by omega, show ¬88 + i - 8 - 16 - 16 - 16 - 16 - 8 < 8 by omega,
      show 88 + i - 8 - 16 - 16 - 16 - 16 - 8 - 8 = i by omega, hi]

/-- `sext_16` reads back what a 16-bit field carries, over the operand range (R74). -/
theorem sext16_field16 {n : Int} (h : isOperand16 n = true) : sext16 (field16 n) = n := by
  simp only [isOperand16, Bool.and_eq_true, decide_eq_true_eq] at h
  rw [sext16, field16, BitVec.toInt_ofInt, Int.bmod_eq_of_le] <;> omega

/-- What `sext_16` reads is an operand of 16 bits (R74). -/
theorem isOperand16_sext16 (v : BitVec 16) : isOperand16 (sext16 v) = true := by
  have h1 := BitVec.le_toInt v
  have h2 := BitVec.toInt_lt (x := v)
  rw [isOperand16, sext16, Bool.and_eq_true, decide_eq_true_eq, decide_eq_true_eq]
  omega

end Sys2Proof
end

