-- ==== Sys2Proof/Laws/Memory.lean ====
section
/-! SUPPORT. The laws of memory: what a read sees after a write, and that every operation keeps the canonical form
(log 6). The read laws hold of every list of cells, canonical or not. -/

namespace Sys2Proof.Machine

theorem Memory.read_filter_ne (m : List Host.Cell) (a b : Nat) (h : b ≠ a) :
    Memory.read (m.filter (fun c => c.1 != a)) b = Memory.read m b := by
  induction m with
  | nil => rfl
  | cons c m ih =>
    obtain ⟨d, v⟩ := c
    by_cases hd : d = a
    · subst hd
      simp [Memory.read, h, ih]
    · simp [hd, Memory.read, ih]

theorem Memory.read_filter_self (m : List Host.Cell) (a : Nat) :
    Memory.read (m.filter (fun c => c.1 != a)) a = Memory.unlisted := by
  induction m with
  | nil => rfl
  | cons c m ih =>
    obtain ⟨d, v⟩ := c
    by_cases hd : d = a
    · simp [hd, ih]
    · simp [hd, Memory.read, Ne.symm hd, ih]

theorem Memory.read_insert_ne (m : List Host.Cell) (a b : Nat) (v : Byte) (h : b ≠ a) :
    Memory.read (Memory.insert m a v) b = Memory.read m b := by
  induction m with
  | nil => simp [Memory.insert, Memory.read, h]
  | cons c m ih =>
    obtain ⟨d, u⟩ := c
    simp only [Memory.insert]
    split
    · simp [Memory.read, h]
    · simp [Memory.read, ih]

theorem Memory.read_insert_self (m : List Host.Cell) (a : Nat) (v : Byte) (h : ∀ c ∈ m, c.1 ≠ a) :
    Memory.read (Memory.insert m a v) a = v := by
  induction m with
  | nil => simp [Memory.insert, Memory.read]
  | cons c m ih =>
    obtain ⟨d, u⟩ := c
    simp only [Memory.insert]
    split
    · simp [Memory.read]
    · have hd : d ≠ a := h (d, u) (by simp)
      simp [Memory.read, hd.symm, ih fun c hc => h c (by simp [hc])]

/-- A read of the written address gives the written byte. -/
@[simp] theorem Memory.read_write_self (m : List Host.Cell) (a : Nat) (v : Byte) :
    Memory.read (Memory.write m a v) a = v := by
  simp only [Memory.write]
  split
  · rename_i h
    rw [Memory.read_filter_self, h]
  · exact Memory.read_insert_self _ _ _ (by simp)

/-- A write leaves every other address alone (R57). -/
theorem Memory.read_write_ne (m : List Host.Cell) (a b : Nat) (v : Byte) (h : b ≠ a) :
    Memory.read (Memory.write m a v) b = Memory.read m b := by
  simp only [Memory.write]
  split
  · exact Memory.read_filter_ne m a b h
  · rw [Memory.read_insert_ne _ _ _ _ h, Memory.read_filter_ne m a b h]

/-- What a byte reads as after a sequence of bytes was written (R15, R57). -/
theorem Memory.read_writeBytes (m : List Host.Cell) (a b : Nat) (vs : List Byte) :
    Memory.read (Memory.writeBytes m a vs) b =
      if a ≤ b ∧ b < a + vs.length then vs.getD (b - a) 0 else Memory.read m b := by
  induction vs generalizing m a with
  | nil => simp [Memory.writeBytes, show ¬(a ≤ b ∧ b < a) by omega]
  | cons v vs ih =>
    rw [Memory.writeBytes, ih]
    rcases Nat.lt_trichotomy b a with h | h | h
    · rw [if_neg (by omega), if_neg (by omega), Memory.read_write_ne _ _ _ _ (by omega)]
    · subst h
      rw [if_neg (by omega), if_pos (by simp)]
      simp
    · by_cases hb : b < a + 1 + vs.length
      · rw [if_pos (by omega), if_pos (by simp; omega), show b - a = (b - (a + 1)) + 1 by omega]
        simp
      · rw [if_neg (by omega), if_neg (by simp; omega), Memory.read_write_ne _ _ _ _ (by omega)]

/-! ### The canonical form -/

theorem Memory.wf_nil : Memory.wf [] := by decide

theorem Memory.wf_filter {m : List Host.Cell} (p : Host.Cell → Bool) (h : Memory.wf m) : Memory.wf (m.filter p) :=
  ⟨h.1.filter p, fun c hc => h.2 c (List.mem_filter.1 hc).1⟩

theorem Memory.mem_insert {m : List Host.Cell} {a : Nat} {v : Byte} {c : Host.Cell} :
    c ∈ Memory.insert m a v ↔ c = (a, v) ∨ c ∈ m := by
  induction m with
  | nil => simp [Memory.insert]
  | cons d m ih =>
    obtain ⟨b, u⟩ := d
    simp only [Memory.insert]
    split
    · simp
    · simp only [List.mem_cons, ih]
      tauto

theorem Memory.wf_insert {m : List Host.Cell} {a : Nat} {v : Byte} (h : Memory.wf m) (hv : v ≠ 0)
    (ha : ∀ c ∈ m, c.1 ≠ a) : Memory.wf (Memory.insert m a v) := by
  refine ⟨?_, fun c hc => ?_⟩
  · obtain ⟨hp, -⟩ := h
    induction m with
    | nil => simp [Memory.insert]
    | cons d m ih =>
      obtain ⟨b, u⟩ := d
      rw [List.pairwise_cons] at hp
      simp only [Memory.insert]
      split
      · rename_i hab
        refine List.pairwise_cons.2 ⟨fun c hc => ?_, List.pairwise_cons.2 hp⟩
        rcases List.mem_cons.1 hc with rfl | hc
        · exact hab
        · exact Nat.lt_trans hab (hp.1 c hc)
      · have hba : b ≠ a := ha (b, u) (by simp)
        refine List.pairwise_cons.2 ⟨fun c hc => ?_, ih (fun c hc => ha c (by simp [hc])) hp.2⟩
        rcases Memory.mem_insert.1 hc with rfl | hc
        · simp; omega
        · exact hp.1 c hc
  · rcases Memory.mem_insert.1 hc with rfl | hc
    · exact hv
    · exact h.2 c hc

/-- A write keeps the canonical form. -/
theorem Memory.wf_write {m : List Host.Cell} (a : Nat) (v : Byte) (h : Memory.wf m) : Memory.wf (Memory.write m a v) := by
  simp only [Memory.write]
  split
  · exact Memory.wf_filter _ h
  · exact Memory.wf_insert (Memory.wf_filter _ h) ‹_› (by simp)

/-- A write of bytes keeps the canonical form. -/
theorem Memory.wf_writeBytes {m : List Host.Cell} (a : Nat) (vs : List Byte) (h : Memory.wf m) :
    Memory.wf (Memory.writeBytes m a vs) := by
  induction vs generalizing m a with
  | nil => exact h
  | cons v vs ih => exact ih _ (Memory.wf_write a v h)

/-- A canonical list says what its addresses read as: a byte reads other than unlisted exactly when it is listed. -/
theorem Memory.mem_iff_read {m : List Host.Cell} (h : Memory.wf m) (a : Nat) (v : Byte) :
    (a, v) ∈ m ↔ v ≠ 0 ∧ Memory.read m a = v := by
  induction m with
  | nil =>
    simp only [List.not_mem_nil, Memory.read, Memory.unlisted, false_iff, not_and]
    exact fun hv h0 => hv h0.symm
  | cons c m ih =>
    obtain ⟨b, u⟩ := c
    obtain ⟨hp, hz⟩ := h
    rw [List.pairwise_cons] at hp
    have hm := ih ⟨hp.2, fun c hc => hz c (by simp [hc])⟩
    by_cases hab : a = b
    · subst hab
      have hn : (a, v) ∉ m := fun hv => Nat.lt_irrefl a (hp.1 (a, v) hv)
      have hu : u ≠ 0 := hz (a, u) (by simp)
      simp only [List.mem_cons, Prod.mk.injEq, true_and, hn, or_false, Memory.read, if_true]
      constructor
      · rintro rfl
        exact ⟨hu, rfl⟩
      · exact fun hh => hh.2.symm
    · simp [Memory.read, hab, hm]

/-- Canonical memories that read the same everywhere are equal. -/
theorem Memory.ext_of_read {m n : List Host.Cell} (hm : Memory.wf m) (hn : Memory.wf n)
    (h : ∀ a, Memory.read m a = Memory.read n a) : m = n := by
  refine List.Perm.eq_of_pairwise (le := fun c d : Host.Cell => c.1 < d.1)
    (fun c d _ _ h1 h2 => absurd (Nat.lt_trans h1 h2) (Nat.lt_irrefl _)) hm.1 hn.1 ?_
  refine (List.perm_ext_iff_of_nodup ?_ ?_).2 fun c => ?_
  · exact hm.1.imp (S := (· ≠ ·)) fun hcd heq => by rw [heq] at hcd; exact Nat.lt_irrefl _ hcd
  · exact hn.1.imp (S := (· ≠ ·)) fun hcd heq => by rw [heq] at hcd; exact Nat.lt_irrefl _ hcd
  · obtain ⟨a, v⟩ := c
    rw [Memory.mem_iff_read hm, Memory.mem_iff_read hn, h]

end Sys2Proof.Machine
end

