-- ==== Sys2Proof/Laws/State.lean ====
section
/-! SUPPORT. The fields of a state after each named update, and the fields of STATUS, so that no proof unfolds a record
update. -/

namespace Sys2Proof.Machine

/-! ### `State.complete` -/

@[simp] theorem State.complete_width (s : State) (code : Code) (data : BitVec 24) : (s.complete code data).width = s.width := rfl
@[simp] theorem State.complete_height (s : State) (code : Code) (data : BitVec 24) : (s.complete code data).height = s.height := rfl
@[simp] theorem State.complete_status (s : State) (code : Code) (data : BitVec 24) : (s.complete code data).status = s.statusAfter code := rfl
@[simp] theorem State.complete_phase (s : State) (code : Code) (data : BitVec 24) : (s.complete code data).phase = .idle := rfl
@[simp] theorem State.complete_mem (s : State) (code : Code) (data : BitVec 24) : (s.complete code data).mem = s.mem := rfl
@[simp] theorem State.complete_enc (s : State) (code : Code) (data : BitVec 24) : (s.complete code data).enc = s.enc := rfl
@[simp] theorem State.complete_line (s : State) (code : Code) (data : BitVec 24) : (s.complete code data).line = s.line := rfl
@[simp] theorem State.complete_flip (s : State) (code : Code) (data : BitVec 24) : (s.complete code data).flip = s.flip := rfl
@[simp] theorem State.complete_rsp (s : State) (code : Code) (data : BitVec 24) : (s.complete code data).rsp = some { code := code, data := data } := rfl
@[simp] theorem State.complete_stream (s : State) (code : Code) (data : BitVec 24) : (s.complete code data).stream = s.stream := rfl
@[simp] theorem State.complete_sinkFailAt (s : State) (code : Code) (data : BitVec 24) : (s.complete code data).sinkFailAt = s.sinkFailAt := rfl
@[simp] theorem State.complete_inputs (s : State) (code : Code) (data : BitVec 24) : (s.complete code data).inputs = s.inputs := rfl
@[simp] theorem State.complete_todo (s : State) (code : Code) (data : BitVec 24) : (s.complete code data).todo = [] := rfl
@[simp] theorem State.complete_freeCount (s : State) (code : Code) (data : BitVec 24) : (s.complete code data).freeCount = s.freeCount := rfl

/-! ### `State.openStream` -/

@[simp] theorem State.openStream_width (s : State) : s.openStream.width = s.width := rfl
@[simp] theorem State.openStream_height (s : State) : s.openStream.height = s.height := rfl
@[simp] theorem State.openStream_status (s : State) : s.openStream.status = s.status := rfl
@[simp] theorem State.openStream_phase (s : State) : s.openStream.phase = s.phase := rfl
@[simp] theorem State.openStream_mem (s : State) : s.openStream.mem = s.mem := rfl
@[simp] theorem State.openStream_enc (s : State) : s.openStream.enc = s.enc := rfl
@[simp] theorem State.openStream_line (s : State) : s.openStream.line = s.line := rfl
@[simp] theorem State.openStream_flip (s : State) : s.openStream.flip = s.flip := rfl
@[simp] theorem State.openStream_rsp (s : State) : s.openStream.rsp = s.rsp := rfl
@[simp] theorem State.openStream_stream (s : State) : s.openStream.stream = [] := rfl
@[simp] theorem State.openStream_sinkFailAt (s : State) : s.openStream.sinkFailAt = s.sinkFailAt := rfl
@[simp] theorem State.openStream_inputs (s : State) : s.openStream.inputs = s.inputs := rfl
@[simp] theorem State.openStream_todo (s : State) : s.openStream.todo = s.todo := rfl
@[simp] theorem State.openStream_freeCount (s : State) : s.openStream.freeCount = s.freeCount := rfl

/-! ### `State.allocate` -/

@[simp] theorem State.allocate_width (s : State) (w h : Int) : (s.allocate w h).width = field16 w := rfl
@[simp] theorem State.allocate_height (s : State) (w h : Int) : (s.allocate w h).height = field16 h := rfl
@[simp] theorem State.allocate_status (s : State) (w h : Int) : (s.allocate w h).status = statusOf true s.last s.fatal := rfl
@[simp] theorem State.allocate_phase (s : State) (w h : Int) : (s.allocate w h).phase = s.phase := rfl
@[simp] theorem State.allocate_mem (s : State) (w h : Int) : (s.allocate w h).mem = [] := rfl
@[simp] theorem State.allocate_enc (s : State) (w h : Int) : (s.allocate w h).enc = s.enc := rfl
@[simp] theorem State.allocate_line (s : State) (w h : Int) : (s.allocate w h).line = s.line := rfl
@[simp] theorem State.allocate_flip (s : State) (w h : Int) : (s.allocate w h).flip = s.flip := rfl
@[simp] theorem State.allocate_rsp (s : State) (w h : Int) : (s.allocate w h).rsp = s.rsp := rfl
@[simp] theorem State.allocate_stream (s : State) (w h : Int) : (s.allocate w h).stream = s.stream := rfl
@[simp] theorem State.allocate_sinkFailAt (s : State) (w h : Int) : (s.allocate w h).sinkFailAt = s.sinkFailAt := rfl
@[simp] theorem State.allocate_inputs (s : State) (w h : Int) : (s.allocate w h).inputs = s.inputs := rfl
@[simp] theorem State.allocate_todo (s : State) (w h : Int) : (s.allocate w h).todo = s.todo := rfl
@[simp] theorem State.allocate_freeCount (s : State) (w h : Int) : (s.allocate w h).freeCount = s.freeCount := rfl

/-! ### `State.accept` -/

@[simp] theorem State.accept_width (s : State) (failAt : Option Nat) (rest : List Input) : (s.accept failAt rest).width = s.width := rfl
@[simp] theorem State.accept_height (s : State) (failAt : Option Nat) (rest : List Input) : (s.accept failAt rest).height = s.height := rfl
@[simp] theorem State.accept_status (s : State) (failAt : Option Nat) (rest : List Input) : (s.accept failAt rest).status = s.status := rfl
@[simp] theorem State.accept_phase (s : State) (failAt : Option Nat) (rest : List Input) : (s.accept failAt rest).phase = .busy := rfl
@[simp] theorem State.accept_mem (s : State) (failAt : Option Nat) (rest : List Input) : (s.accept failAt rest).mem = s.mem := rfl
@[simp] theorem State.accept_enc (s : State) (failAt : Option Nat) (rest : List Input) : (s.accept failAt rest).enc = s.enc := rfl
@[simp] theorem State.accept_line (s : State) (failAt : Option Nat) (rest : List Input) : (s.accept failAt rest).line = s.line := rfl
@[simp] theorem State.accept_flip (s : State) (failAt : Option Nat) (rest : List Input) : (s.accept failAt rest).flip = s.flip := rfl
@[simp] theorem State.accept_rsp (s : State) (failAt : Option Nat) (rest : List Input) : (s.accept failAt rest).rsp = s.rsp := rfl
@[simp] theorem State.accept_stream (s : State) (failAt : Option Nat) (rest : List Input) : (s.accept failAt rest).stream = s.stream := rfl
@[simp] theorem State.accept_sinkFailAt (s : State) (failAt : Option Nat) (rest : List Input) : (s.accept failAt rest).sinkFailAt = failAt := rfl
@[simp] theorem State.accept_inputs (s : State) (failAt : Option Nat) (rest : List Input) : (s.accept failAt rest).inputs = rest := rfl
@[simp] theorem State.accept_todo (s : State) (failAt : Option Nat) (rest : List Input) : (s.accept failAt rest).todo = s.todo := rfl
@[simp] theorem State.accept_freeCount (s : State) (failAt : Option Nat) (rest : List Input) : (s.accept failAt rest).freeCount = s.freeCount := rfl

/-! ### `State.drawPastEnd` (log 19) -/

theorem State.drawPastEnd_inside {s : State} {n : Nat} (h : s.enc.curpix + n ≤ s.npix) : s.drawPastEnd n = s := if_pos h

/-- Only the count of free draws can differ. -/
theorem State.drawPastEnd_eq (s : State) (n : Nat) : ∃ k, s.drawPastEnd n = { s with freeCount := k } := by
  unfold State.drawPastEnd
  split
  · exact ⟨s.freeCount, rfl⟩
  · exact ⟨_, rfl⟩

/-! ### `STATUS` (R22) -/

/-- The fields of a status word are the ones it was made of. -/
theorem statusOf_fields (a : Bool) (l : BitVec 3) (f : Bool) :
    (statusOf a l f).getLsbD 0 = a ∧ (statusOf a l f).extractLsb' 1 3 = l ∧ (statusOf a l f).getLsbD 4 = f := by
  revert a l f; decide

/-- A status word is made of its fields. -/
theorem statusOf_eta (v : BitVec 5) : statusOf (v.getLsbD 0) (v.extractLsb' 1 3) (v.getLsbD 4) = v := by
  revert v; decide

@[simp] theorem State.statusOf_self (s : State) : statusOf s.alloc s.last s.fatal = s.status := statusOf_eta s.status

theorem State.alloc_of_status {s : State} {a l f} (h : s.status = statusOf a l f) : s.alloc = a := by
  rw [State.alloc, h, (statusOf_fields a l f).1]

theorem State.last_of_status {s : State} {a l f} (h : s.status = statusOf a l f) : s.last = l := by
  rw [State.last, h, (statusOf_fields a l f).2.1]

theorem State.fatal_of_status {s : State} {a l f} (h : s.status = statusOf a l f) : s.fatal = f := by
  rw [State.fatal, h, (statusOf_fields a l f).2.2]

/-! ### `ALLOC`, `LAST`, `FATAL` after each update (R208) -/

@[simp] theorem State.complete_alloc (s : State) (code : Code) (data : BitVec 24) :
    (s.complete code data).alloc = s.alloc := State.alloc_of_status rfl
@[simp] theorem State.complete_last (s : State) (code : Code) (data : BitVec 24) :
    (s.complete code data).last = code.toBits := State.last_of_status rfl
@[simp] theorem State.complete_fatal (s : State) (code : Code) (data : BitVec 24) :
    (s.complete code data).fatal = (s.fatal || code.isFatal) := State.fatal_of_status rfl
@[simp] theorem State.openStream_alloc (s : State) : s.openStream.alloc = s.alloc := rfl
@[simp] theorem State.openStream_last (s : State) : s.openStream.last = s.last := rfl
@[simp] theorem State.openStream_fatal (s : State) : s.openStream.fatal = s.fatal := rfl
@[simp] theorem State.allocate_alloc (s : State) (w h : Int) : (s.allocate w h).alloc = true :=
  State.alloc_of_status rfl
@[simp] theorem State.allocate_last (s : State) (w h : Int) : (s.allocate w h).last = s.last :=
  State.last_of_status rfl
@[simp] theorem State.allocate_fatal (s : State) (w h : Int) : (s.allocate w h).fatal = s.fatal :=
  State.fatal_of_status rfl
@[simp] theorem State.accept_alloc (s : State) (failAt : Option Nat) (rest : List Input) :
    (s.accept failAt rest).alloc = s.alloc := rfl
@[simp] theorem State.accept_last (s : State) (failAt : Option Nat) (rest : List Input) :
    (s.accept failAt rest).last = s.last := rfl
@[simp] theorem State.accept_fatal (s : State) (failAt : Option Nat) (rest : List Input) :
    (s.accept failAt rest).fatal = s.fatal := rfl

/-! ### Sizes after each update (R34) -/

@[simp] theorem State.complete_npix (s : State) (code : Code) (data : BitVec 24) :
    (s.complete code data).npix = s.npix := rfl
@[simp] theorem State.complete_memSize (s : State) (code : Code) (data : BitVec 24) :
    (s.complete code data).memSize = s.memSize := rfl
@[simp] theorem State.openStream_npix (s : State) : s.openStream.npix = s.npix := rfl
@[simp] theorem State.openStream_memSize (s : State) : s.openStream.memSize = s.memSize := rfl
@[simp] theorem State.accept_npix (s : State) (failAt : Option Nat) (rest : List Input) :
    (s.accept failAt rest).npix = s.npix := rfl
@[simp] theorem State.accept_memSize (s : State) (failAt : Option Nat) (rest : List Input) :
    (s.accept failAt rest).memSize = s.memSize := rfl

/-- A command that ends with a code and data goes to the completed state. -/
@[simp] theorem State.respond_eq (s : State) (code : Code) (data : BitVec 24) :
    s.respond code data = .next (s.complete code data) := rfl

end Sys2Proof.Machine
end

