-- ==== Sys2Proof/Laws/Ops.lean ====
section
/-! SUPPORT. One law per shared operation: everything it can do. -/

namespace Sys2Proof.Machine

/-! ### Reading and writing `MEM` (R15, R54) -/

@[simp] theorem State.bytesAt_length (s : State) (a n : Nat) : (s.bytesAt a n).length = n := by simp [State.bytesAt]

theorem State.bytesAt_getElem (s : State) (a n k : Nat) (h : k < n) :
    (s.bytesAt a n)[k]'(by simpa using h) = s.byteAt (a + k) := by simp [State.bytesAt]

/-- The bytes read depend on the memory alone. -/
theorem State.bytesAt_congr {s t : State} (h : t.mem = s.mem) (a n : Nat) : t.bytesAt a n = s.bytesAt a n := by
  simp [State.bytesAt, State.byteAt, h]

@[simp] theorem State.memRead_length (s : State) (a n : Nat) : (s.memRead a n).length = n := by simp [State.memRead]

/-- `MemRead` answers the stored byte at every address that exists, whatever stands beyond (R15, R33). -/
theorem State.memRead_getElem? {s : State} {a n k : Nat} (hk : k < n) (h : a + k < s.memSize) :
    (s.memRead a n)[k]? = some (s.byteAt (a + k)) := by
  simp [State.memRead, hk, h]

/-- `MemRead` answers the stored bytes where they all exist. -/
theorem State.memRead_inside {s : State} {a n : Nat} (h : a + n ≤ s.memSize) : s.memRead a n = s.bytesAt a n := by
  refine List.map_congr_left fun k hk => if_pos ?_
  have := List.mem_range.1 hk
  omega

theorem State.memWrite_ok {s : State} {a : Nat} {bs : List Byte} (h : a + bs.length ≤ s.memSize) :
    s.memWrite a bs = .ok { s with mem := Memory.writeBytes s.mem a bs } := if_pos h

/-! ### The bounds test and the address of a pixel (R53, R54) -/

theorem State.outOfBounds_eq_false {s : State} {x y : Int} :
    s.outOfBounds x y = false ↔ 0 ≤ x ∧ 0 ≤ y ∧ x < s.width.toNat ∧ y < s.height.toNat := by
  simp [State.outOfBounds, and_assoc]

theorem State.pixelOffset_nat (s : State) (x y : Nat) :
    s.pixelOffset x y = (x + y * s.width.toNat) * 3 := by
  unfold State.pixelOffset
  have h : ((x : Int) + y * s.width.toNat) * 3 = (((x + y * s.width.toNat) * 3 : Nat) : Int) := by push_cast; rfl
  rw [h, Int.toNat_natCast]

/-- A pixel whose coordinates pass the bounds test has its three bytes inside `MEM`. -/
theorem State.pixel_inside {s : State} {x y : Nat} (hx : x < s.width.toNat) (hy : y < s.height.toNat) :
    (x + y * s.width.toNat) * 3 + 3 ≤ s.memSize := by
  have h : (y + 1) * s.width.toNat ≤ s.height.toNat * s.width.toNat := Nat.mul_le_mul_right _ hy
  have e : (y + 1) * s.width.toNat = y * s.width.toNat + s.width.toNat := by ring
  simp only [State.memSize, State.npix, Nat.mul_comm s.width.toNat]
  omega

/-- The state after an attempt at a point, in bounds or not (R170, R175). -/
def State.putPixel (s : State) (p : Int × Int) (c : Colour) : State :=
  { s with mem := if s.outOfBounds p.1 p.2 then s.mem else
      Memory.writeBytes s.mem (s.pixelOffset p.1 p.2) (colourBytes c) }

/-- `TrySetPixel` always succeeds, and changes nothing but the memory. -/
theorem State.trySetPixel_eq (s : State) (x y : Int) (c : Colour) :
    s.trySetPixel x y c = .ok (s.putPixel (x, y) c) := by
  unfold State.trySetPixel State.putPixel
  cases h : s.outOfBounds x y
  · obtain ⟨hx, hy, hx', hy'⟩ := State.outOfBounds_eq_false.1 h
    lift x to Nat using hx
    lift y to Nat using hy
    have hin := State.pixel_inside (s := s) (x := x) (y := y) (by omega) (by omega)
    simp only [Bool.false_eq_true, if_false]
    exact State.memWrite_ok (by rw [State.pixelOffset_nat]; simpa [colourBytes] using hin)
  · rfl

/-- The walk of `drawLine` always succeeds: it puts the pixel at each attempted point, in order (R173, R175). -/
theorem State.lineWalk_eq (n : Nat) (s : State) :
    State.lineWalk n s = .ok { (((List.range n).map fun t => (s.line.after t).point).foldl
        (fun t p => t.putPixel p s.line.colour) s) with line := s.line.after n } := by
  induction n generalizing s with
  | zero => simp [State.lineWalk, LineRegs.after]
  | succ n ih =>
    have hc : s.line.advance.colour = s.line.colour := by unfold LineRegs.advance; split <;> rfl
    have hfold : ∀ (ps : List (Int × Int)) (u : State) (l : LineRegs) (c : Colour),
        ps.foldl (fun t p => t.putPixel p c) { u with line := l } =
          { ps.foldl (fun t p => t.putPixel p c) u with line := l } := by
      intro ps
      induction ps with
      | nil => intros; rfl
      | cons p ps ih => intro u l c; exact ih (u.putPixel p c) l c
    simp only [State.lineWalk, State.lineStep, State.trySetPixel_eq]
    rw [ih, hfold]
    simp only [hc, List.range_succ_eq_map, List.map_cons, List.map_map, List.foldl_cons]
    rfl

/-! ### The flip's turn (R105) -/

/-- One turn of the flip, while the two rows differ: they change places, all else stays, the counter goes on. -/
theorem State.swapRows_eq (s : State) (h : 2 * s.flip.j + 1 < s.height.toNat) :
    ∃ t, s.swapRows = .ok t ∧
      t = { s with mem := t.mem, flip := { scratch := s.bytesAt (s.flip.j * s.rowBytes) s.rowBytes, j := s.flip.j + 1 } } ∧
      (Memory.wf s.mem → Memory.wf t.mem) ∧
      ∀ a, t.byteAt a =
        if s.flip.j * s.rowBytes ≤ a ∧ a < (s.flip.j + 1) * s.rowBytes then
          s.byteAt ((s.height.toNat - 1 - s.flip.j) * s.rowBytes + (a - s.flip.j * s.rowBytes))
        else if (s.height.toNat - 1 - s.flip.j) * s.rowBytes ≤ a ∧
            a < (s.height.toNat - s.flip.j) * s.rowBytes then
          s.byteAt (s.flip.j * s.rowBytes + (a - (s.height.toNat - 1 - s.flip.j) * s.rowBytes))
        else s.byteAt a := by
  have hms : s.memSize = s.height.toNat * s.rowBytes := by
    simp only [State.memSize, State.npix, State.rowBytes]; ring
  obtain ⟨k, hk⟩ : ∃ k, s.height.toNat - 1 - s.flip.j = k := ⟨_, rfl⟩
  have hk1 : s.height.toNat - s.flip.j = k + 1 := by omega
  have hjk : (s.flip.j + 1) * s.rowBytes ≤ k * s.rowBytes := Nat.mul_le_mul_right _ (by omega)
  have hkm : (k + 1) * s.rowBytes ≤ s.memSize := hms ▸ Nat.mul_le_mul_right _ (by omega)
  rw [Nat.add_mul, Nat.one_mul] at hjk hkm
  have hlow := State.memRead_inside (s := s) (a := s.flip.j * s.rowBytes) (n := s.rowBytes) (by omega)
  have hhigh := State.memRead_inside (s := s) (a := k * s.rowBytes) (n := s.rowBytes) (by omega)
  have hw1 := State.memWrite_ok (s := s) (a := s.flip.j * s.rowBytes) (bs := s.bytesAt (k * s.rowBytes) s.rowBytes)
    (by rw [State.bytesAt_length]; omega)
  obtain ⟨s1, hs1⟩ : ∃ s1, s1 = { s with
      mem := Memory.writeBytes s.mem (s.flip.j * s.rowBytes) (s.bytesAt (k * s.rowBytes) s.rowBytes) } := ⟨_, rfl⟩
  have hw2 := State.memWrite_ok (s := s1) (a := k * s.rowBytes)
    (bs := s.bytesAt (s.flip.j * s.rowBytes) s.rowBytes) (by rw [State.bytesAt_length, hs1]; exact hkm)
  rw [← hs1] at hw1
  refine ⟨_, by simp only [State.swapRows, hk, hlow, hhigh, hw1, hw2]; rfl, ?_, fun hwf => ?_, fun a => ?_⟩
  · subst hs1; rfl
  · subst hs1; exact Memory.wf_writeBytes _ _ (Memory.wf_writeBytes _ _ hwf)
  · subst hs1
    simp only [State.byteAt, Memory.read_writeBytes, State.bytesAt_length, hk, hk1, Nat.add_mul, Nat.one_mul]
    by_cases h1 : s.flip.j * s.rowBytes ≤ a ∧ a < s.flip.j * s.rowBytes + s.rowBytes
    · rw [if_neg (by omega), if_pos h1, if_pos h1, List.getD_eq_getElem _ _ (by simp; omega),
        State.bytesAt_getElem _ _ _ _ (by omega)]
      rfl
    · rw [if_neg h1]
      by_cases h2 : k * s.rowBytes ≤ a ∧ a < k * s.rowBytes + s.rowBytes
      · rw [if_pos h2, if_neg h1, if_pos h2, List.getD_eq_getElem _ _ (by simp; omega),
          State.bytesAt_getElem _ _ _ _ (by omega)]
        rfl
      · rw [if_neg h2, if_neg h1, if_neg h2]

/-! ### The sink (R40) -/

/-- Emission appends the bytes up to the first one the sink refuses, and changes nothing else (R15, R40). -/
theorem State.emit_eq (s : State) (bs : List Byte) :
    s.emit bs =
      match s.sinkFailAt with
      | none => .go { s with stream := s.stream ++ bs }
      | some k =>
        if s.stream.length ≤ k ∧ k < s.stream.length + bs.length then
          .refused { s with stream := s.stream ++ bs.take (k - s.stream.length) }
        else .go { s with stream := s.stream ++ bs } := by
  induction bs generalizing s with
  | nil =>
    cases h : s.sinkFailAt with
    | none => simp [State.emit, ← h]
    | some k => simp [State.emit, show ¬(s.stream.length ≤ k ∧ k < s.stream.length) by omega, ← h]
  | cons b bs ih =>
    rw [State.emit, ih]
    cases h : s.sinkFailAt with
    | none => simp
    | some k =>
      simp only [Option.some.injEq, List.length_append, List.length_cons, List.length_nil]
      rcases Nat.lt_trichotomy k s.stream.length with hk | hk | hk
      · rw [if_neg (by omega), if_neg (by omega), if_neg (by omega)]
        simp
      · subst hk
        rw [if_pos rfl, if_pos (by omega)]
        simp [← h]
      · rw [if_neg (by omega), show k - s.stream.length = (k - (s.stream.length + 1)) + 1 by omega]
        by_cases hb : k < s.stream.length + (bs.length + 1)
        · rw [if_pos (by omega), if_pos (by omega)]
          simp
        · rw [if_neg (by omega), if_neg (by omega)]
          simp

/-- A sink that refuses nothing takes all. -/
theorem State.emit_accepting {s : State} (h : s.sinkFailAt = none) (bs : List Byte) :
    s.emit bs = .go { s with stream := s.stream ++ bs } := by
  rw [State.emit_eq, h]

@[simp] theorem Flow.go_andThen (s : State) (k : State → Flow) : (Flow.go s).andThen k = k s := rfl
@[simp] theorem Flow.refused_andThen (s : State) (k : State → Flow) : (Flow.refused s).andThen k = .refused s := rfl
@[simp] theorem Flow.finish_go (s : State) : (Flow.go s).finish = .next (s.complete .ok 0) := rfl
@[simp] theorem Flow.finish_refused (s : State) : (Flow.refused s).finish = .next (s.complete .ioError 0) := rfl
@[simp] theorem Flow.proceed_go (s : State) : (Flow.go s).proceed = .next s := rfl
@[simp] theorem Flow.proceed_refused (s : State) : (Flow.refused s).proceed = .next (s.complete .ioError 0) := rfl

/-! ### What a flow reaches, whichever way it ends -/

/-- The state the flow goes on or is refused in has a property. -/
def Flow.All (P : State → Prop) : Flow → Prop
  | .go s => P s
  | .refused s => P s

theorem Flow.All.mono {P Q : State → Prop} {f : Flow} (h : f.All P) (hPQ : ∀ s, P s → Q s) : f.All Q := by
  cases f <;> exact hPQ _ h

theorem Flow.All.andThen {P Q : State → Prop} {f : Flow} {k : State → Flow} (h : f.All P) (hk : ∀ s, P s → (k s).All Q)
    (hPQ : ∀ s, P s → Q s) : (f.andThen k).All Q := by
  cases f <;> first | exact hk _ h | exact hPQ _ h

/-- Emission changes the stream only. -/
theorem State.emit_all (s : State) (bs : List Byte) :
    (s.emit bs).All fun t => ∃ st, t = { s with stream := st } := by
  rw [State.emit_eq]
  split
  · exact ⟨_, rfl⟩
  · split <;> exact ⟨_, rfl⟩

/-- A stream command ends in the epilogue, with `OK` or `IOError`. -/
theorem Flow.All.finish {P : State → Prop} {f : Flow} (h : f.All P) :
    ∃ s code, P s ∧ (code = .ok ∨ code = .ioError) ∧ f.finish = .next (s.complete code 0) := by
  cases f with
  | go s => exact ⟨s, .ok, h, .inl rfl, rfl⟩
  | refused s => exact ⟨s, .ioError, h, .inr rfl, rfl⟩

/-! ### The encoder (R121, R124, R131) -/

/-- The registers of a chunk under way: the scan pointer and the length so far lie inside the pixels, and the next
comparison starts at the chunk's last pixel. -/
structure EncoderRegs.Running (e : EncoderRegs) (npix : Nat) : Prop where
  npixels   : e.npixels = npix
  start     : e.chunkstart = 3 * e.curpix
  positive  : 1 ≤ e.runLength
  capped    : e.runLength ≤ 128
  inside    : e.curpix + e.runLength ≤ npix
  leftPixel : e.curbyte = 3 * (e.curpix + e.runLength - 1)

theorem EncoderRegs.mayExtend_iff (e : EncoderRegs) :
    e.mayExtend = true ↔ e.curpix + e.runLength < e.npixels ∧ e.runLength < 128 := by
  rw [EncoderRegs.mayExtend, Bool.and_eq_true, decide_eq_true_eq, decide_eq_true_eq]
  rfl

/-- A look-ahead keeps the chunk's start, and ends with a chunk of 1 to 128 pixels inside the
picture (R29, R124, R126). -/
theorem State.lookAhead_spec (s : State) (n : Nat) (e : EncoderRegs) (h : e.Running s.npix) :
    ∃ e', s.lookAhead n e = e' ∧ e'.npixels = e.npixels ∧ e'.curpix = e.curpix ∧ e'.chunkstart = e.chunkstart ∧
      1 ≤ e'.runLength ∧ e'.runLength ≤ 128 ∧ e'.curpix + e'.runLength ≤ s.npix ∧ e'.curbyte < 3 * s.npix := by
  induction n generalizing e with
  | zero =>
    have := h.inside; have := h.positive; have := h.leftPixel
    exact ⟨e, rfl, rfl, rfl, rfl, h.positive, h.capped, h.inside, by omega⟩
  | succ n ih =>
    obtain ⟨h1, h2, h3, h4, h5, h6⟩ := h
    rw [State.lookAhead]
    by_cases hm : e.mayExtend = true
    · rw [if_pos hm]
      rw [EncoderRegs.mayExtend_iff] at hm
      simp only
      generalize (s.memRead e.curbyte 3 == s.memRead (e.curbyte + 3) 3) = eq
      split
      · rename_i hd
        have hr : e.runLength ≠ 1 := by
          intro hr
          simp [EncoderRegs.compare, hr] at hd
        refine ⟨_, rfl, rfl, rfl, rfl, ?_, ?_, ?_, ?_⟩ <;> simp only [EncoderRegs.compare] <;> omega
      · split
        · refine ⟨_, rfl, rfl, rfl, rfl, ?_, ?_, ?_, ?_⟩ <;> simp only [EncoderRegs.compare] <;> omega
        · obtain ⟨e', he, ha, hb, hc, hrest⟩ := ih
            { e.compare eq with runLength := (e.compare eq).runLength + 1 }
            (by constructor <;> simp only [EncoderRegs.compare] <;> omega)
          exact ⟨e', he, ha, hb, hc, hrest⟩
    · rw [if_neg hm]
      exact ⟨e, rfl, rfl, rfl, rfl, h3, h4, h5, by omega⟩

/-- What the emission of a stream may change: the encoder's registers and the stream. -/
def EmitsOnly (s t : State) : Prop := ∃ e st, t = { s with enc := e, stream := st }

theorem EmitsOnly.refl (s : State) : EmitsOnly s s := ⟨s.enc, s.stream, rfl⟩

theorem EmitsOnly.trans {s t u : State} (h : EmitsOnly s t) (h' : EmitsOnly t u) : EmitsOnly s u := by
  obtain ⟨e, st, rfl⟩ := h
  obtain ⟨e', st', rfl⟩ := h'
  exact ⟨e', st', rfl⟩

theorem State.emit_emitsOnly (s : State) (bs : List Byte) : (s.emit bs).All (EmitsOnly s) :=
  (s.emit_all bs).mono fun _ ⟨st, h⟩ => ⟨s.enc, st, h⟩

/-- The scan pointer past a chunk that ends inside the buffer (R121, R127). -/
theorem State.pointerPast_inside {s : State} {n : Nat} (h : s.enc.curpix + n ≤ s.npix) :
    s.pointerPast n = s.enc.curpix + n := if_pos (.inl h)

/-- The scan pointer past a chunk lies inside the buffer or in 30 bits (R26). -/
theorem State.pointerPast_le (s : State) (n : Nat) : s.pointerPast n ≤ s.npix ∨ s.pointerPast n < 2 ^ 30 := by
  unfold State.pointerPast
  split
  · assumption
  · exact .inr (BitVec.isLt _)

/-- The end of a chunk moves the scan pointer past the chunk and changes nothing else of the state but the stream (R121). -/
theorem State.emitChunk_all (s : State) :
    s.emitChunk.All fun t =>
      ∃ st, t = { s with enc := { s.enc with curpix := s.pointerPast s.enc.runLength }, stream := st } := by
  have key : ∀ (u : State) (b : List Byte) (a n : Nat),
      ((u.emit b).andThen fun v => v.emit (v.memRead a n)).All fun t => ∃ st, t = { u with stream := st } := by
    intro u b a n
    refine (u.emit_all b).andThen ?_ fun _ h => h
    rintro v ⟨st, rfl⟩
    refine (State.emit_all _ _).mono ?_
    rintro t ⟨st', rfl⟩
    exact ⟨st', rfl⟩
  unfold State.emitChunk
  split <;> exact key { s with enc := { s.enc with curpix := s.pointerPast s.enc.runLength } } _ _ _

/-- The end of a chunk with a sink that refuses nothing: the count byte, then what `MemRead` answers for its pixels, one pixel
for a run (R79, R80, R121). -/
theorem State.emitChunk_accepting {s : State} (h : s.sinkFailAt = none) :
    s.emitChunk = .go { s with
      enc := { s.enc with curpix := s.pointerPast s.enc.runLength },
      stream := s.stream ++ if s.enc.raw then
          rawCountByte s.enc.runLength :: s.memRead s.enc.chunkstart (3 * s.enc.runLength)
        else runCountByte s.enc.runLength :: s.memRead s.enc.chunkstart 3 } := by
  unfold State.emitChunk
  cases s.enc.raw <;>
    simp only [Bool.false_eq_true, if_false, if_true] <;>
    rw [State.emit_accepting (by exact h), Flow.go_andThen, State.emit_accepting (by exact h)] <;>
    simp only [List.append_assoc] <;> rfl

/-- One chunk moves the scan pointer on, inside the picture (R121, R127, R131). -/
theorem State.encodeChunk_all (s : State) (hn : s.enc.npixels = s.npix) (hc : s.enc.curpix < s.enc.npixels) :
    s.encodeChunk.All fun t => EmitsOnly s t ∧ t.enc.npixels = s.npix ∧ s.enc.curpix < t.enc.curpix ∧
      t.enc.curpix ≤ s.npix := by
  obtain ⟨e, he, h1, h2, -, h4, -, h6, -⟩ := s.lookAhead_spec Config.maxChunk s.enc.startChunk
    ⟨hn, rfl, Nat.le_refl 1, by simp [EncoderRegs.startChunk], by rw [hn] at hc; exact hc,
      by simp [EncoderRegs.startChunk]⟩
  have h2' : e.curpix = s.enc.curpix := h2
  rw [State.encodeChunk, he]
  refine (State.emitChunk_all { s with enc := e }).mono ?_
  rw [State.pointerPast_inside (s := { s with enc := e }) h6]
  rintro t ⟨st, rfl⟩
  exact ⟨⟨_, st, rfl⟩, h1.trans hn, by simp only; omega, h6⟩

/-- The packet loop changes nothing but the encoder's registers and the stream (R121, R131). -/
theorem State.encodeChunks_all (n : Nat) (s : State) (hn : s.enc.npixels = s.npix) (hc : s.enc.curpix ≤ s.npix) :
    (State.encodeChunks n s).All fun t => EmitsOnly s t ∧ t.enc.npixels = s.npix ∧ t.enc.curpix ≤ s.npix := by
  induction n generalizing s with
  | zero => exact ⟨.refl s, hn, hc⟩
  | succ n ih =>
    rw [State.encodeChunks]
    split
    · rename_i hlt
      refine (s.encodeChunk_all hn hlt).andThen ?_ fun t h => ⟨h.1, h.2.1, h.2.2.2⟩
      rintro t ⟨hs, hnp, -, hcp⟩
      have hnp' : t.npix = s.npix := by obtain ⟨e, st, rfl⟩ := hs; rfl
      exact (ih t (hnp.trans hnp'.symm) (hnp' ▸ hcp)).mono fun u h => ⟨hs.trans h.1, hnp' ▸ h.2.1, hnp' ▸ h.2.2⟩
    · exact ⟨.refl s, hn, hc⟩

/-- `EmitRLE` changes nothing but the encoder's registers and the stream (R65, R121, R131). -/
theorem State.emitRLE_all (s : State) :
    s.emitRLE.All fun t => EmitsOnly s t ∧ t.enc.npixels = s.npix ∧ t.enc.curpix ≤ s.npix := by
  refine (State.encodeChunks_all s.npix { s with enc := { s.enc with npixels := s.npix, curpix := 0 } } rfl
    (Nat.zero_le _)).mono ?_
  rintro t ⟨⟨e, st, rfl⟩, h⟩
  exact ⟨⟨e, st, rfl⟩, h⟩

end Sys2Proof.Machine
end

