-- ==== Sys2Proof/Laws/PerInstr.lean ====
section
/-! SUPPORT. One lemma per constructor: the encoding of every instruction carries the fixed bits of its row of
spec/opcode_table.json, and every field its format ignores is zero (R72, R73, R79, R80, R82, R85, R90). -/

namespace Sys2Proof.Laws.TableRow

/-- A command word with the given opcode whose ignored fields among C, D and the colour are zero (R71, R73). -/
def CommandRow (i : Instr) (op : Byte) (usesPoints usesColour : Bool) : Prop :=
  ∃ w, encode i = .command w ∧ opField w = op ∧ (usesPoints = false → cField w = 0 ∧ dField w = 0) ∧
    (usesColour = false → colourField w = Colour.zero)

/-- The encoding of an instruction matches its row: for a command the opcode, and zero in the fields its format ignores;
for a packet bit 7 of its one byte, where the count is one a packet can have; for the header and the trailer the row's
length and its fixed bytes. -/
def Statement : Instr → Prop
  | .create w h => CommandRow (.create w h) 0x01 false false
  | .setPixel x y c => CommandRow (.setPixel x y c) 0x02 false true
  | .getPixel x y => CommandRow (.getPixel x y) 0x03 false false
  | .flipVertically => CommandRow .flipVertically 0x04 false false
  | .drawLine x0 y0 x1 y1 c => CommandRow (.drawLine x0 y0 x1 y1 c) 0x05 true true
  | .encode => CommandRow .encode 0x06 false false
  | .write r => CommandRow (.write r) 0x07 false false
  | .rawPacket n => (Instr.rawPacket n).wf = true → ∃ b, encode (.rawPacket n) = .stream [b] ∧ b.getLsbD 7 = false
  | .runPacket n => (Instr.runPacket n).wf = true → ∃ b, encode (.runPacket n) = .stream [b] ∧ b.getLsbD 7 = true
  | .tgaHeader r => ∃ bs, encode (.tgaHeader r) = .stream bs ∧ bs.length = 18 ∧
      bs[2]? = some (if r then 0x0A else 0x02) ∧ bs.drop 16 = [0x18, 0x20]
  | .tgaTrailer => ∃ bs, encode .tgaTrailer = .stream bs ∧ bs.length = 26 ∧ bs.take 8 = List.replicate 8 0

/-- An assembled word is of its row when the fields the row ignores were filled with zero. -/
theorem commandRow_assemble {i : Instr} {op : Byte} {a b c d : BitVec 16} {col : Colour} {usesPoints usesColour : Bool}
    (h : Sys2Proof.encode i = .command (assemble op a b c d col)) (hp : usesPoints = false → c = 0 ∧ d = 0)
    (hc : usesColour = false → col = Colour.zero) : CommandRow i op usesPoints usesColour := by
  refine ⟨_, h, opField_assemble .., fun hu => ?_, fun hu => ?_⟩
  · rw [cField_assemble, dField_assemble]
    exact hp hu
  · rw [colourField_assemble]
    exact hc hu

theorem create (w h : Int) : Statement (.create w h) := commandRow_assemble rfl (fun _ => ⟨rfl, rfl⟩) fun _ => rfl

theorem setPixel (x y : Int) (c : Colour) : Statement (.setPixel x y c) :=
  commandRow_assemble rfl (fun _ => ⟨rfl, rfl⟩) fun h => nomatch h

theorem getPixel (x y : Int) : Statement (.getPixel x y) := commandRow_assemble rfl (fun _ => ⟨rfl, rfl⟩) fun _ => rfl

theorem flipVertically : Statement .flipVertically := commandRow_assemble rfl (fun _ => ⟨rfl, rfl⟩) fun _ => rfl

theorem drawLine (x0 y0 x1 y1 : Int) (c : Colour) : Statement (.drawLine x0 y0 x1 y1 c) :=
  commandRow_assemble rfl (fun h => nomatch h) fun h => nomatch h

theorem encode : Statement .encode := commandRow_assemble rfl (fun _ => ⟨rfl, rfl⟩) fun _ => rfl

theorem write (r : Bool) : Statement (.write r) := commandRow_assemble rfl (fun _ => ⟨rfl, rfl⟩) fun _ => rfl

theorem rawPacket (n : Nat) : Statement (.rawPacket n) := by
  intro h
  simp only [Instr.wf, isPacketCount, Bool.and_eq_true, decide_eq_true_eq] at h
  refine ⟨_, rfl, ?_⟩
  rw [rawCountByte, BitVec.getLsbD_ofNat, Nat.testBit_lt_two_pow (by omega)]
  rfl

theorem runPacket (n : Nat) : Statement (.runPacket n) := by
  intro h
  simp only [Instr.wf, isPacketCount, Bool.and_eq_true, decide_eq_true_eq] at h
  refine ⟨_, rfl, ?_⟩
  obtain ⟨k, rfl⟩ : ∃ k, n = k + 1 := ⟨n - 1, by omega⟩
  rw [runCountByte, BitVec.getLsbD_ofNat, show k + 1 + 127 = 2 ^ 7 + k by omega, Nat.testBit_two_pow_add_eq,
    Nat.testBit_lt_two_pow (by omega)]
  rfl

theorem tgaHeader (r : Bool) : Statement (.tgaHeader r) := ⟨_, rfl, rfl, by cases r <;> rfl, rfl⟩

theorem tgaTrailer : Statement .tgaTrailer := ⟨_, rfl, rfl, rfl⟩

end Sys2Proof.Laws.TableRow
end

