-- ==== Sys2Proof/Tests/Slice0.lean ====
section
/-! SUPPORT. The model's own tests. Every expected value is copied from a vector, program or example of
spec/95_test_vectors.md or from a rule's example, named in the comment; nothing was taken from the model. Then, for every
statement with hypotheses, a state and operands that meet them. -/

namespace Sys2Proof.Tests

open Sys2Proof Sys2Proof.Machine

/-! ### Well-formedness: an ill-formed term for each check (R74, R78) -/

theorem test_wf_create_width_above : (Instr.create 32768 1).wf = false := by decide
theorem test_wf_create_height_below : (Instr.create 1 (-32769)).wf = false := by decide
theorem test_wf_setPixel_x_above : (Instr.setPixel 32768 0 Colour.zero).wf = false := by decide
theorem test_wf_setPixel_y_below : (Instr.setPixel 0 (-32769) Colour.zero).wf = false := by decide
theorem test_wf_getPixel_x_below : (Instr.getPixel (-32769) 0).wf = false := by decide
theorem test_wf_getPixel_y_above : (Instr.getPixel 0 32768).wf = false := by decide
theorem test_wf_drawLine_x0 : (Instr.drawLine 32768 0 0 0 Colour.zero).wf = false := by decide
theorem test_wf_drawLine_y0 : (Instr.drawLine 0 (-32769) 0 0 Colour.zero).wf = false := by decide
theorem test_wf_drawLine_x1 : (Instr.drawLine 0 0 32768 0 Colour.zero).wf = false := by decide
theorem test_wf_drawLine_y1 : (Instr.drawLine 0 0 0 32768 Colour.zero).wf = false := by decide
theorem test_wf_raw_empty : (Instr.rawPacket 0).wf = false := by decide
theorem test_wf_raw_long : (Instr.rawPacket 129).wf = false := by decide
theorem test_wf_run_empty : (Instr.runPacket 0).wf = false := by decide
theorem test_wf_run_long : (Instr.runPacket 129).wf = false := by decide
theorem test_wf_extremes : (Instr.drawLine (-32768) 32767 32767 (-32768) Colour.zero).wf = true := by decide

/-! ### Decoding: words written out from the spec -/

/-- V1. -/
theorem test_decode_create : decode (.command 0x000000000000000003000201) = .ok (.create 2 3) := by decide
/-- V20: bit 15 set reads as negative. -/
theorem test_decode_create_negative :
    decode (.command 0x000000000000000001800001) = .ok (.create (-32768) 1) := by decide
/-- V13: the channels in their order. -/
theorem test_decode_setPixel :
    decode (.command 0x8000FF000000000001000102) = .ok (.setPixel 1 1 { blue := 255, green := 0, red := 128 }) := by decide
/-- V12. -/
theorem test_decode_getPixel : decode (.command 0x000000000000007FFF7FFF03) = .ok (.getPixel 32767 32767) := by decide
/-- V14. -/
theorem test_decode_flip : decode (.command 0x000000000000000000000004) = .ok .flipVertically := by decide
/-- V165. -/
theorem test_decode_drawLine : decode (.command 0x00FF000004FFFF0000000305) =
    .ok (.drawLine 3 0 (-1) 4 { blue := 0, green := 255, red := 0 }) := by decide
/-- V174. -/
theorem test_decode_encode : decode (.command 0x000000000000000000000006) = .ok .encode := by decide
/-- V111: `useRLE` is bit 8 alone. -/
theorem test_decode_write_raw : decode (.command 0x000000000000000000FFFE07) = .ok (.write false) := by decide
/-- V111. -/
theorem test_decode_write_rle : decode (.command 0x000000000000000000000307) = .ok (.write true) := by decide
/-- V25: ignored fields may hold anything (R73). -/
theorem test_decode_ignored_fields : decode (.command 0xCCBBAAFFFF12340003000201) = .ok (.create 2 3) := by decide
/-- V177, V178, V179: no command (R75). -/
theorem test_decode_illegal : decode (.command 0) = .error (.illegalOpcode 0) ∧
    decode (.command 0x000000000000000001000108) = .error (.illegalOpcode 8) ∧
    decode (.command 0xFFFFFFFFFFFFFFFFFFFFFFFF) = .error (.illegalOpcode 0xFF) := by decide
/-- R81: raw packets of 1 and of 128. -/
theorem test_decode_raw : decode (.stream [0x00]) = .ok (.rawPacket 1) ∧
    decode (.stream [0x7F]) = .ok (.rawPacket 128) := by decide
/-- R81, V91: run packets of 1 (legal in the format), 2 and 128. -/
theorem test_decode_run : decode (.stream [0x80]) = .ok (.runPacket 1) ∧
    decode (.stream [0x81]) = .ok (.runPacket 2) ∧ decode (.stream [0xFF]) = .ok (.runPacket 128) := by decide
/-- V105: the header of a 3×1 raw file. -/
theorem test_decode_header_raw : decode (.stream [0x00, 0x00, 0x02, 0x00, 0x00, 0x00, 0x00, 0x00, 0x00, 0x00, 0x00, 0x00,
    0x03, 0x00, 0x01, 0x00, 0x18, 0x20]) = .ok (.tgaHeader false) := by decide
/-- V106: the header of an 800×800 run-length file. -/
theorem test_decode_header_rle : decode (.stream [0x00, 0x00, 0x0A, 0x00, 0x00, 0x00, 0x00, 0x00, 0x00, 0x00, 0x00, 0x00,
    0x20, 0x03, 0x20, 0x03, 0x18, 0x20]) = .ok (.tgaHeader true) := by decide
/-- R85: the trailer, byte for byte. -/
theorem test_decode_trailer : decode (.stream [0x00, 0x00, 0x00, 0x00, 0x00, 0x00, 0x00, 0x00, 0x54, 0x52, 0x55, 0x45,
    0x56, 0x49, 0x53, 0x49, 0x4F, 0x4E, 0x2D, 0x58, 0x46, 0x49, 0x4C, 0x45, 0x2E, 0x00]) = .ok .tgaTrailer := by decide
/-- A header with a data type code that is neither 2 nor 10 is no element. -/
theorem test_decode_header_bad : decode (.stream [0x00, 0x00, 0x03, 0x00, 0x00, 0x00, 0x00, 0x00, 0x00, 0x00, 0x00, 0x00,
    0x03, 0x00, 0x01, 0x00, 0x18, 0x20]) = .error .unknownElement := by decide
/-- V93, V94: the reference decoder. -/
theorem test_reference_decoder :
    decodeStreamPixels [0x01, 0x10, 0x20, 0x30, 0x10, 0x20, 0x30] =
      some [{ blue := 0x10, green := 0x20, red := 0x30 }, { blue := 0x10, green := 0x20, red := 0x30 }] ∧
    (decodeStreamPixels [0xFF, 0x10, 0x20, 0x30]).map List.length = some 128 := by decide +kernel

/-! ### Single instructions -/

/-- An idle core with a buffer that holds the given bytes. -/
def picture (w h : BitVec 16) (bytes : List Byte) : State :=
  { State.reset with width := w, height := h, status := 1, mem := Memory.writeBytes [] 0 bytes }

/-- The state an instruction goes to, or reset. -/
def after (i : Instr) (s : State) : State :=
  match exec i s with
  | .next t => t
  | _ => State.reset

/-- All of `MEM`. -/
def memory (s : State) : List Byte := s.bytesAt 0 s.memSize

/-- `A B B`, three pixels in one row (2.2, 2.4 of 95_test_vectors.md). -/
def abb : State := picture 3 1 [0x10, 0x20, 0x30, 0x40, 0x50, 0x60, 0x40, 0x50, 0x60]

/-- `MEM` of V13. -/
def v13 : State := picture 2 3 [0x01, 0x02, 0x03, 0x07, 0x08, 0x09, 0, 0, 0, 0xFF, 0, 0x80, 0, 0, 0, 0x04, 0x05, 0x06]

/-- V22: re-creation drops the old pixels and keeps `FATAL`. -/
theorem test_create_again : (memory (after (.create 1 1) { v13 with status := 0x13 })) = [0, 0, 0] ∧
    (after (.create 1 1) { v13 with status := 0x13 }).status = 0x11 := by decide
/-- V17: a failed `create` keeps the buffer and sets `FATAL`. -/
theorem test_create_invalid : (after (.create 0 5) v13).status = 0x13 ∧ memory (after (.create 0 5) v13) = memory v13 := by
  decide
/-- V13: offset 9, channel values 255 and 0. -/
theorem test_setPixel_bytes : memory (after (.setPixel 1 1 { blue := 255, green := 0, red := 128 })
    (picture 2 3 [1, 2, 3, 7, 8, 9, 0, 0, 0, 0, 0, 0, 0, 0, 0, 4, 5, 6])) = memory v13 := by decide
/-- V7: `x = WIDTH` is out of bounds although its offset is a pixel's. -/
theorem test_setPixel_edge : (after (.setPixel 2 0 { blue := 9, green := 9, red := 9 }) v13).status = 0x05 ∧
    (after (.setPixel 2 0 { blue := 9, green := 9, red := 9 }) v13).mem = v13.mem := by decide
/-- V5: the data is `{red, green, blue}`. -/
theorem test_getPixel_data : (after (.getPixel 1 2) v13).rsp = some { code := .ok, data := 0x060504 } := by decide
/-- V11. -/
theorem test_getPixel_outside : (after (.getPixel 2 2) v13).rsp = some { code := .outOfBounds, data := 0 } := by
  decide
/-- V14: rows 0 and 2 exchanged, the middle row kept. -/
theorem test_flip_odd : memory (after .flipVertically v13) =
    [0, 0, 0, 0x04, 0x05, 0x06, 0, 0, 0, 0xFF, 0, 0x80, 0x01, 0x02, 0x03, 0x07, 0x08, 0x09] := by decide
/-- V29: two swaps. -/
theorem test_flip_even : memory (after .flipVertically
    (picture 1 4 [0x10, 0x20, 0x30, 0x40, 0x50, 0x60, 0x70, 0x80, 0x90, 0xA0, 0xB0, 0xC0])) =
    [0xA0, 0xB0, 0xC0, 0x70, 0x80, 0x90, 0x40, 0x50, 0x60, 0x10, 0x20, 0x30] := by decide
/-- P5: a steep line with the tie rule. -/
theorem test_drawLine_steep : memory (after (.drawLine 0 0 1 3 { blue := 255, green := 0, red := 0 }) (picture 3 4 [])) =
    [0xFF, 0, 0, 0, 0, 0, 0, 0, 0, 0xFF, 0, 0, 0, 0, 0, 0, 0, 0, 0, 0, 0, 0xFF, 0, 0, 0, 0, 0, 0, 0, 0, 0xFF, 0, 0, 0, 0, 0] := by
  decide
/-- V165: a clipped falling line, endpoints in the other order. -/
theorem test_drawLine_clipped : memory (after (.drawLine 3 0 (-1) 4 { blue := 0, green := 255, red := 0 }) (picture 4 4 [])) =
    [0, 0, 0, 0, 0, 0, 0, 0, 0, 0, 255, 0, 0, 0, 0, 0, 0, 0, 0, 255, 0, 0, 0, 0,
     0, 0, 0, 0, 255, 0, 0, 0, 0, 0, 0, 0, 0, 255, 0, 0, 0, 0, 0, 0, 0, 0, 0, 0] := by decide
/-- V43: run, raw cut back from 3 to 2, run. -/
theorem test_encode_cut_back : (after .encode (picture 9 1 [0x10, 0x20, 0x30, 0x10, 0x20, 0x30, 0x10, 0x20, 0x30,
    0x40, 0x50, 0x60, 0x70, 0x80, 0x90, 0xA0, 0xB0, 0xC0, 0xA0, 0xB0, 0xC0, 0xA0, 0xB0, 0xC0, 0xA0, 0xB0, 0xC0])).stream =
    [0x82, 0x10, 0x20, 0x30, 0x01, 0x40, 0x50, 0x60, 0x70, 0x80, 0x90, 0x83, 0xA0, 0xB0, 0xC0] := by decide
/-- V82: byte 4 refused. -/
theorem test_encode_refused : (after .encode { abb with sinkFailAt := some 4 }).stream = [0x00, 0x10, 0x20, 0x30] ∧
    (after .encode { abb with sinkFailAt := some 4 }).status = 0x17 := by decide
/-- V104. -/
theorem test_write_rle : (after (.write true) abb).stream =
    [0x00, 0x00, 0x0A, 0x00, 0x00, 0x00, 0x00, 0x00, 0x00, 0x00, 0x00, 0x00, 0x03, 0x00, 0x01, 0x00, 0x18, 0x20,
     0x00, 0x10, 0x20, 0x30, 0x81, 0x40, 0x50, 0x60, 0x00, 0x00, 0x00, 0x00, 0x00, 0x00, 0x00, 0x00, 0x54, 0x52, 0x55,
     0x45, 0x56, 0x49, 0x53, 0x49, 0x4F, 0x4E, 0x2D, 0x58, 0x46, 0x49, 0x4C, 0x45, 0x2E, 0x00] := by decide
/-- V105. -/
theorem test_write_raw : (after (.write false) abb).stream =
    [0x00, 0x00, 0x02, 0x00, 0x00, 0x00, 0x00, 0x00, 0x00, 0x00, 0x00, 0x00, 0x03, 0x00, 0x01, 0x00, 0x18, 0x20,
     0x10, 0x20, 0x30, 0x40, 0x50, 0x60, 0x40, 0x50, 0x60, 0x00, 0x00, 0x00, 0x00, 0x00, 0x00, 0x00, 0x00, 0x54, 0x52,
     0x55, 0x45, 0x56, 0x49, 0x53, 0x49, 0x4F, 0x4E, 0x2D, 0x58, 0x46, 0x49, 0x4C, 0x45, 0x2E, 0x00] := by decide
/-- V37 cut into its packets: RAW(1) then RUN(2). -/
theorem test_packet_elements : (after (.rawPacket 1) abb).stream = [0x00, 0x10, 0x20, 0x30] ∧
    (after (.runPacket 2) (after (.rawPacket 1) abb)).stream = [0x00, 0x10, 0x20, 0x30, 0x81, 0x40, 0x50, 0x60] := by
  decide
/-- R79, R80 past the end of a buffer of three pixels: 1 + 3*4 bytes, those that exist as they are stored; the run's pixel
exists. -/
theorem test_packet_past_the_end : (after (.rawPacket 4) abb).stream.length = 13 ∧
    (after (.rawPacket 4) abb).stream.take 10 = [0x03, 0x10, 0x20, 0x30, 0x40, 0x50, 0x60, 0x40, 0x50, 0x60] ∧
    (after (.runPacket 4) abb).stream = [0x83, 0x10, 0x20, 0x30] := by decide
/-- V102: the header of a 1×1 run-length file; R85: 26 trailer bytes. -/
theorem test_frame_elements : (after (.tgaHeader true) (picture 1 1 [])).stream =
    [0x00, 0x00, 0x0A, 0x00, 0x00, 0x00, 0x00, 0x00, 0x00, 0x00, 0x00, 0x00, 0x01, 0x00, 0x01, 0x00, 0x18, 0x20] ∧
    (after .tgaTrailer abb).stream.length = 26 := by decide

/-! ### Single steps -/

/-- The state a step goes to from an idle core to which one word is presented, or reset. -/
def afterWord (w : CommandWord) (failAt : Option Nat) (s : State) : State :=
  match step { s with inputs := [.command w failAt] } with
  | .next t => t
  | _ => State.reset

/-- V176: `NoBuffer` outranks `OutOfBounds`. -/
theorem test_step_no_buffer : (afterWord 0x010101000000000000FFFF02 none State.reset).status = 0x08 := by decide
/-- V178: `IllegalCommand` outranks `NoBuffer`. -/
theorem test_step_illegal : (afterWord 0x000000000000000001000108 none State.reset).status = 0x0A := by decide
/-- V185: `encode` of two black pixels, byte 2 refused. -/
theorem test_step_refused : (afterWord 0x000000000000000000000006 (some 2) { picture 2 1 [] with status := 0x11 }).stream =
      [0x81, 0x00] ∧
    (afterWord 0x000000000000000000000006 (some 2) { picture 2 1 [] with status := 0x11 }).status = 0x17 := by
  decide
/-- R100: the example word makes a 3×2 buffer. -/
theorem test_step_create : (afterWord 0x000000000000000002000301 none State.reset).width = 3 ∧
    (afterWord 0x000000000000000002000301 none State.reset).height = 2 ∧
    memory (afterWord 0x000000000000000002000301 none State.reset) = List.replicate 18 0 := by decide

/-- Table words decode to their rows: each command's opcode alone, and a count byte of each kind. -/
theorem test_table_words : decodeTableWord 8 1 = some (.create 0 0) ∧ decodeTableWord 96 0x307 = some (.write true) ∧
    decodeTableWord 8 0 = some (.rawPacket 1) ∧ decodeTableWord 8 0x80 = some (.runPacket 1) ∧
    decodeTableWord 96 0 = none := by decide

/-- A placed table word runs in the next step (log 2, log 8). -/
theorem test_placed_word_runs : step (abb.withFetchWord 8 6) =
      exec .encode { abb with phase := .busy } ∧
    step (abb.withFetchWord 8 0) = exec (.rawPacket 1) { abb with phase := .busy } := ⟨rfl, rfl⟩

/-! ### Witnesses: for each statement with hypotheses, a state and operands that meet all of them

`abb` and `v13` are small pictures in an idle core; where a statement has several clauses, each has a witness, at a
boundary of its range. -/

/-- `abb` meets the invariant, with a command presented to it that has a next state, and so does a busy state of it. -/
theorem abb_inv : abb.Inv :=
  ⟨by decide, by decide, by decide, by decide, by decide, (fun _ h => nomatch h),
    by decide, by decide, by decide, by decide, by decide⟩

theorem witness_StepKeepsTheInvariant : ∃ s t, State.Inv s ∧ step s = .next t :=
  ⟨{ abb with inputs := [.command 0x000000000000000000000004 none] }, _,
    ⟨abb_inv.memCanonical, abb_inv.memInside, abb_inv.noBuffer, abb_inv.buffer, abb_inv.lastIsCode, (fun _ h => nomatch h),
      abb_inv.idleHasNothing, abb_inv.todoWellFormed, abb_inv.encFits, abb_inv.lineFits, abb_inv.flipFits⟩, rfl⟩

theorem witness_BufferFitsTheCapacity : ∃ s : State, s.Inv ∧ s.memSize = 9 := ⟨abb, abb_inv, by decide⟩

theorem witness_IdleStepAlwaysAnswers : abb.phase = .idle := rfl

theorem witness_ResetInputIsTaken : ∃ (s : State) (rest : List Input),
    s.phase = .idle ∧ s.inputs = .reset :: rest := ⟨{ abb with inputs := [.reset] }, [], rfl, rfl⟩

theorem witness_IdleCoreStaysUnchanged : abb.phase = .idle ∧ abb.inputs = [] := ⟨rfl, rfl⟩

theorem witness_StepRunsTheAcceptedCommand : ∃ (s : State) (w : CommandWord) (rest : List Input) (i : Instr),
    s.phase = .idle ∧ s.inputs = .command w (some 4) :: rest ∧ decode (.command w) = .ok i :=
  ⟨{ abb with inputs := [.command 0x6 (some 4)] }, 0x6, [], .encode, rfl, rfl, by decide⟩

/-- Both clauses: an element left to issue, and none left. -/
theorem witness_StepRunsTheNextElement :
    (∃ s : State, s.phase = .busy ∧ s.todo = [.tgaTrailer]) ∧ ∃ s : State, s.phase = .busy ∧ s.todo = [] :=
  ⟨⟨{ abb with phase := .busy, todo := [.tgaTrailer] }, rfl, rfl⟩, ⟨{ abb with phase := .busy }, rfl, rfl⟩⟩

/-- The boundary opcodes of both clauses: 0 and 8 are illegal, 1 and 7 are commands, and each step answers. -/
theorem witness_IllegalOpcodeIsAnswered :
    (∃ s : State, s.phase = .idle ∧ s.inputs = [.command 0x0 none, .command 0x8 none]) ∧
    ((0x0 : CommandWord).toNat % 256 = 0 ∧ 8 ≤ (0x8 : CommandWord).toNat % 256) ∧
    (1 ≤ (0x1 : CommandWord).toNat % 256 ∧ (0x7 : CommandWord).toNat % 256 ≤ 7) ∧
    (∃ t, step { abb with inputs := [.command 0x1 none] } = .next t) ∧
    ∃ t r, step { abb with inputs := [.command 0x7 none] } = .next t ∧ t.rsp = some r :=
  ⟨⟨{ abb with inputs := [.command 0x0 none, .command 0x8 none] }, rfl, rfl⟩, by decide, by decide, ⟨_, rfl⟩,
    ⟨_, _, rfl, rfl⟩⟩

/-- A word that is a command, and one that is none. -/
theorem witness_EveryCommandEndsInTheEpilogue :
    (∃ s : State, s.phase = .idle ∧ s.inputs = [.command 0x7 none]) ∧
    (∃ i, decodeCommand 0x7 = .ok i) ∧ ∃ r, decodeCommand 0x8 = .error r :=
  ⟨⟨{ abb with inputs := [.command 0x7 none] }, rfl, rfl⟩, ⟨.write false, by decide⟩, _, rfl⟩

/-- Both clauses: no buffer, and a buffer. -/
theorem witness_NoBufferIsAnswered : Instr.encode.isCommand = true ∧ (∀ w h, Instr.encode ≠ .create w h) ∧
    State.reset.alloc = false ∧ abb.alloc = true ∧ ∃ t r, exec .encode abb = .next t ∧ t.rsp = some r :=
  ⟨rfl, (fun _ _ h => nomatch h), by decide, by decide, _, _, rfl, rfl⟩

theorem witness_FatalBitIsSticky : ∃ s t : State, step s = .next t ∧ s.fatal = true :=
  ⟨{ abb with status := 0x11 }, _, rfl, by decide⟩

theorem witness_OnlyCreateChangesTheDimensions :
    ∃ t, (∀ w h, Instr.flipVertically ≠ .create w h) ∧ exec .flipVertically v13 = .next t :=
  ⟨_, (fun _ _ h => nomatch h), rfl⟩

theorem witness_ResultsIgnoreTheWorkingRegisters : (Instr.drawLine 0 0 1 3 Colour.zero).isCommand = true := rfl

theorem witness_DecodeOfEncodeIsTheInstruction : (Instr.drawLine (-32768) 32767 32767 (-32768) Colour.zero).wf = true ∧
    (Instr.rawPacket 128).wf = true ∧ (Instr.runPacket 1).wf = true := by decide

theorem witness_DecodedInstructionIsWellFormed : decode (.stream [0xFF]) = .ok (.runPacket 128) := by decide

theorem witness_RunCountByteSpellingsAgree : ∃ n : Nat, 1 ≤ n ∧ n ≤ 128 := ⟨128, by decide, by decide⟩

theorem witness_CreateZeroFillsTheBuffer : ∃ w h : Int, 1 ≤ w ∧ w ≤ 32767 ∧ 1 ≤ h ∧ h ≤ 32767 :=
  ⟨32767, 1, by decide, by decide, by decide, by decide⟩

/-- Both clauses at their boundary: 0 is not positive, 1 is. -/
theorem witness_CreateRejectsNonPositiveDimensions :
    ((0 : Int) ≤ 0 ∨ (1 : Int) ≤ 0) ∧ ((0 : Int) < 1 ∧ (0 : Int) < 1) ∧
      ∃ t r, exec (.create 1 1) abb = .next t ∧ t.rsp = some r := ⟨by decide, by decide, _, _, rfl, rfl⟩

theorem witness_SetPixelStoresThreeBytes : v13.alloc = true ∧ 1 < v13.width.toNat ∧ 2 < v13.height.toNat := by
  decide

/-- Both clauses at their boundary, and a `drawLine` that answers. -/
theorem witness_OutOfBoundsIsAnswered : v13.alloc = true ∧ (2 : Int) ≥ v13.width.toNat ∧
    ((0 : Int) ≤ 1 ∧ (0 : Int) ≤ 2 ∧ (1 : Int) < v13.width.toNat ∧ (2 : Int) < v13.height.toNat) ∧
    (∃ t r, exec (.getPixel 1 2) v13 = .next t ∧ t.rsp = some r) ∧
    ∃ t r, exec (.drawLine 9 9 9 9 Colour.zero) v13 = .next t ∧ t.rsp = some r :=
  ⟨by decide, by decide, by decide, ⟨_, _, rfl, rfl⟩, _, _, rfl, rfl⟩

theorem witness_GetPixelAnswersTheStoredColour : v13.alloc = true ∧ 1 < v13.width.toNat ∧ 2 < v13.height.toNat := by
  decide

theorem witness_GetPixelReadsWhatSetPixelWrote : v13.alloc = true ∧ 1 < v13.width.toNat ∧ 2 < v13.height.toNat ∧
    0 < v13.width.toNat ∧ 2 < v13.height.toNat ∧ ¬(0 = 1 ∧ 2 = 2) := by decide

theorem witness_FlipReversesTheRows : v13.alloc = true ∧ 1 < v13.width.toNat ∧ 2 < v13.height.toNat ∧
    5 < v13.rowBytes := by decide

theorem witness_FlipTwiceRestoresTheBuffer : v13.alloc = true ∧ Memory.wf v13.mem := by decide

/-- Both clauses: a pixel on the segment, and one off it. -/
theorem witness_DrawLinePaintsTheSegment : v13.alloc = true ∧ 1 < v13.width.toNat ∧ 2 < v13.height.toNat ∧
    (((1 : Nat) : Int), ((2 : Nat) : Int)) ∈ segmentPoints 0 0 1 2 ∧
    (((1 : Nat) : Int), ((0 : Nat) : Int)) ∉ segmentPoints 0 0 1 2 := by decide

/-- A proper segment with a distance inside it, and a single point. -/
theorem witness_AttemptsAreTheRoundedLine : 0 < (LineRegs.setup 0 0 4 2 Colour.zero).dx ∧
    ((4 : Nat) : Int) ≤ (LineRegs.setup 0 0 4 2 Colour.zero).dx ∧ (LineRegs.setup 2 2 2 2 Colour.zero).dx = 0 := by
  decide

/-- Both clauses. -/
theorem witness_OneAttemptPerDominantPosition : isSteep 0 0 4 4 = false ∧ isSteep 0 0 4 5 = true := by decide

theorem witness_SegmentHasNoGaps : (lineAttempts 0 0 4 2)[3]? = some (3, 1) ∧ (lineAttempts 0 0 4 2)[3 + 1]? = some (4, 2) ∧
    (lineAttempts 0 0 2 5)[1]? = some (0, 1) ∧ (lineAttempts 0 0 2 5)[1 + 1]? = some (1, 2) := by decide

/-- Both clauses. -/
theorem witness_ZeroLengthSegmentIsOnePixel : v13.alloc = true ∧ v13.outOfBounds 2 0 = true ∧
    v13.outOfBounds 1 2 = false := by decide

theorem witness_RasterizerRegistersStayInBounds : (Instr.drawLine (-3) 1 2 1 Colour.zero).wf = true ∧
    6 ≤ (LineRegs.setup (-3) 1 2 1 Colour.zero).positions := by decide

theorem witness_EncodeFollowsTheChunkRule : abb.alloc = true ∧ abb.sinkFailAt = none := by decide
theorem witness_DecodedStreamIsThePicture : abb.alloc = true ∧ abb.sinkFailAt = none := by decide
theorem witness_PacketsPartitionThePicture : abb.alloc = true ∧ abb.sinkFailAt = none := by decide

theorem witness_UniformPictureIsRuns : (picture 3 1 []).alloc = true ∧ (picture 3 1 []).sinkFailAt = none ∧
    (picture 3 1 []).pixels = List.replicate (picture 3 1 []).npix Colour.zero := by decide

theorem witness_AlternatingPictureIsRawPackets : v13.alloc = true ∧ v13.sinkFailAt = none ∧
    ∀ i, i + 1 < v13.npix → v13.pixel i ≠ v13.pixel (i + 1) :=
  ⟨by decide, by decide, fun i hi =>
    (by decide : ∀ i < 5, v13.pixel i ≠ v13.pixel (i + 1)) i
      (by have h : v13.npix = 6 := by decide
          omega)⟩

/-- Both clauses at their boundary: the stream of `A B B` has 8 bytes (V83, V84). -/
theorem witness_RefusedByteEndsInIoError : Instr.encode.isStreamCommand = true ∧
    ({ abb with sinkFailAt := some 7 } : State).alloc = true ∧
    7 < (after .encode abb).stream.length ∧ (after .encode abb).stream.length ≤ 8 := by decide

theorem witness_StreamCommandsOnlyReadTheBuffer : ∃ s s' : State, (Instr.write true).isStreamCommand = true ∧
    s'.width = s.width ∧ s'.height = s.height ∧ s'.mem = s.mem ∧ s'.alloc = s.alloc ∧ s'.sinkFailAt = s.sinkFailAt ∧
    s' ≠ s := ⟨abb, { abb with status := 0x11 }, by decide⟩

theorem witness_StreamsHaveTheirThreeShapes : abb.alloc = true ∧ abb.sinkFailAt = none := by decide
theorem witness_FileLengthsAreAsStated : abb.alloc = true ∧ abb.sinkFailAt = none := by decide
theorem witness_RawAndRleFilesAgreeAroundThePayload : abb.alloc = true ∧ abb.sinkFailAt = none := by decide

theorem witness_PacketElementsEmitTheirBytes : abb.alloc = true ∧ abb.sinkFailAt = none ∧ 1 ≤ 3 ∧ 3 ≤ 128 ∧
    abb.enc.curpix + 3 ≤ abb.npix := by decide

theorem witness_HeaderAndTrailerElementsEmitTheirBytes : abb.alloc = true ∧ abb.sinkFailAt = none := by decide

theorem witness_RefusedElementEndsInIoError : ∃ s u : State, s.alloc = true ∧
    exec StreamElement.tgaTrailer.toInstr { s with sinkFailAt := none } = .next u ∧ s.sinkFailAt = some 25 ∧
    s.stream.length ≤ 25 ∧ 25 < u.stream.length :=
  ⟨{ abb with sinkFailAt := some 25 }, _, by decide, rfl, rfl, by decide, by decide⟩

/-- One pixel too many, and an address of the buffer that the packet reaches. -/
theorem witness_PacketPastTheBufferCompletes : abb.alloc = true ∧ abb.sinkFailAt = none ∧ 1 ≤ 4 ∧ 4 ≤ 128 ∧
    abb.npix < abb.enc.curpix + 4 ∧ 3 * abb.enc.curpix + 8 < abb.memSize ∧ 3 * abb.enc.curpix + 2 < abb.memSize ∧
    abb.enc.curpix + 4 < 2 ^ 30 := by decide

theorem witness_ElementWithoutBufferEndsInNoBuffer : State.reset.alloc = false := by decide

theorem witness_IssuingTheElementsIsWrite : abb.alloc = true ∧ abb.inputs = [] := by decide

end Sys2Proof.Tests
end

section
/-! PROOFS. Family 00_scope.md: the buffer and the capacity of the pixel memory (R9). -/

namespace Sys2Proof.Machine

/-- R21: both dimensions are at most `MAX_DIM`, with a buffer and without. -/
theorem State.Inv.dimensions_le_maxDim {s : State} (h : s.Inv) :
    s.width.toNat ≤ Config.maxDim ∧ s.height.toNat ≤ Config.maxDim := by
  cases ha : s.alloc with
  | false =>
    obtain ⟨hw, hh⟩ := h.noBuffer ha
    simp [hw, hh]
  | true =>
    obtain ⟨-, hw, -, hh⟩ := h.buffer ha
    exact ⟨hw, hh⟩

/-- The largest buffer, `MAX_DIM*MAX_DIM*3` bytes, bounds every buffer whose dimensions are legal (R9, R34). -/
theorem State.memSize_le_largestBuffer {s : State} (hw : s.width.toNat ≤ Config.maxDim)
    (hh : s.height.toNat ≤ Config.maxDim) : s.memSize ≤ Config.maxDim * Config.maxDim * Config.bpp :=
  Nat.mul_le_mul_right 3 (Nat.mul_le_mul hw hh)

/-- R9: the capacity is at least the largest buffer, whatever stands above it. -/
theorem largestBuffer_le_memBytes : Config.maxDim * Config.maxDim * Config.bpp ≤ Config.memBytes :=
  Nat.le_add_right _ Config.memBytesAbove

/-- Settles O15: the invariant bounds both dimensions by `MAX_DIM`, so the buffer is at most the largest one, which every
capacity holds. -/
theorem bufferFitsTheCapacity : Obligations.BufferFitsTheCapacity := by
  intro s h
  obtain ⟨hw, hh⟩ := h.dimensions_le_maxDim
  exact (State.memSize_le_largestBuffer hw hh).trans largestBuffer_le_memBytes

end Sys2Proof.Machine
end

section
/-! PROOFS. Family 10_state.md, the step: one equation per case of a step (R24, R25, R38, R43), the reset state, and the
statements that say no more than these. -/

namespace Sys2Proof.Machine

/-! ### A step, case by case -/

theorem step_nothingPresented {s : State} (hp : s.phase = .idle) (hi : s.inputs = []) : step s = .next s := by
  simp only [step, State.fetch, hp, hi]

theorem step_reset {s : State} {rest : List Input} (hp : s.phase = .idle) (hi : s.inputs = .reset :: rest) :
    step s = .next (s.takeReset rest) := by
  simp only [step, State.fetch, hp, hi]

theorem step_command {s : State} {w : CommandWord} {failAt : Option Nat} {rest : List Input} {i : Instr}
    (hp : s.phase = .idle) (hi : s.inputs = .command w failAt :: rest) (hd : decodeCommand w = .ok i) :
    step s = exec i (s.accept failAt rest) := by
  simp only [step, State.fetch, hp, hi, hd]

theorem step_illegal {s : State} {w : CommandWord} {failAt : Option Nat} {rest : List Input} {r : DecodeError}
    (hp : s.phase = .idle) (hi : s.inputs = .command w failAt :: rest) (hd : decodeCommand w = .error r) :
    step s = .next ((s.accept failAt rest).complete .illegalCommand 0) := by
  simp only [step, State.fetch, hp, hi, hd]

theorem step_nothingToIssue {s : State} (hp : s.phase = .busy) (ht : s.todo = []) :
    step s = .next (s.complete .ok 0) := by
  simp only [step, State.fetch, hp, ht]

theorem step_element {s : State} {e : StreamElement} {rest : List StreamElement} (hp : s.phase = .busy)
    (ht : s.todo = e :: rest) : step s = exec e.toInstr { s with todo := rest } := by
  simp only [step, State.fetch, hp, ht]

/-- Every state is in exactly one of the situations the equations above speak of, so a claim about all steps is a claim
about these six. -/
theorem step_cases {motive : State → Prop} (s : State)
    (nothingPresented : s.phase = .idle → s.inputs = [] → motive s)
    (reset : ∀ rest, s.phase = .idle → s.inputs = .reset :: rest → motive s)
    (command : ∀ w failAt rest i, s.phase = .idle → s.inputs = .command w failAt :: rest → decodeCommand w = .ok i →
      motive s)
    (illegal : ∀ w failAt rest r, s.phase = .idle → s.inputs = .command w failAt :: rest → decodeCommand w = .error r →
      motive s)
    (nothingToIssue : s.phase = .busy → s.todo = [] → motive s)
    (element : ∀ e rest, s.phase = .busy → s.todo = e :: rest → motive s) : motive s := by
  cases hp : s.phase with
  | idle =>
    match hi : s.inputs with
    | [] => exact nothingPresented hp hi
    | .reset :: rest => exact reset rest hp hi
    | .command w failAt :: rest =>
      cases hd : decodeCommand w with
      | ok i => exact command w failAt rest i hp hi hd
      | error r => exact illegal w failAt rest r hp hi hd
  | busy =>
    cases ht : s.todo with
    | nil => exact nothingToIssue hp ht
    | cons e rest => exact element e rest hp ht

/-- Every operand a command word carries is one of 16 bits, so the command it decodes to is well-formed (R74). -/
theorem decodeCommand_wf {w : CommandWord} {i : Instr} (h : decodeCommand w = .ok i) : i.wf = true := by
  unfold decodeCommand at h
  split_ifs at h <;> cases h <;> simp only [Instr.wf, isOperand16_sext16, Bool.and_self]

theorem State.complete_ended (s : State) (code : Code) (data : BitVec 24) : Ended s (s.complete code data) code data :=
  ⟨s.complete_last code data, s.complete_fatal code data, rfl, rfl, rfl⟩

theorem State.complete_keepsDimensions (s : State) (code : Code) (data : BitVec 24) :
    KeepsDimensions s (s.complete code data) := ⟨rfl, rfl, s.complete_alloc code data⟩

/-! ### The statements about the reset state and about single steps -/

/-- Settles O1: each field of the reset state is read off, and nothing is presented to it. -/
theorem resetLeavesNoBufferAndIdle : Obligations.ResetLeavesNoBufferAndIdle :=
  ⟨rfl, rfl, rfl, rfl, rfl, rfl, rfl, step_nothingPresented rfl rfl⟩

/-- Settles O2: no byte is listed, no buffer exists, nothing was answered, and every working register is 0. -/
theorem resetMeetsTheInvariant : Obligations.ResetMeetsTheInvariant where
  memCanonical := Memory.wf_nil
  memInside := by simp [State.reset]
  noBuffer _ := ⟨rfl, rfl⟩
  buffer h := absurd h (by decide)
  lastIsCode := by decide
  rspAgrees := by simp [State.reset]
  idleHasNothing _ := rfl
  todoWellFormed := by simp [State.reset]
  encFits := by decide
  lineFits := by decide
  flipFits := by decide

/-- Settles O5: the step takes the reset. -/
theorem resetInputIsTaken : Obligations.ResetInputIsTaken :=
  fun _ _ hp hi => step_reset hp hi

/-- Settles O7: the step runs the decoded instruction in the accepted state. -/
theorem stepRunsTheAcceptedCommand : Obligations.StepRunsTheAcceptedCommand :=
  fun _ _ _ _ _ hp hi hd => ⟨decodeCommand_wf hd, step_command hp hi hd⟩

/-- Settles O8: with an element to issue the step runs it; with none it is the epilogue with `OK`. -/
theorem stepRunsTheNextElement : Obligations.StepRunsTheNextElement :=
  fun s hp => ⟨fun _ _ ht => step_element hp ht, fun ht =>
    ⟨_, step_nothingToIssue hp ht, s.complete_ended .ok 0, s.complete_keepsDimensions .ok 0, rfl, rfl⟩⟩

end Sys2Proof.Machine
end

section
/-! PROOFS. Family 10_state.md, the rasterizer's registers (R28, R31): what holds of them after each position of a walk. -/

namespace Sys2Proof.Machine

/-- One more position is one more update at the end of the walk. -/
theorem LineRegs.after_succ (t : Nat) (r : LineRegs) : r.after (t + 1) = (r.after t).advance := by
  induction t generalizing r with
  | zero => rfl
  | succ t ih => exact ih r.advance

/-- The registers after `t` positions of a walk between endpoints of 16 bits: the dominant coordinate has moved by `t`, the
secondary one by at most `t`, and the error accumulator lies above `-dx` and not above `dx` (R31). -/
structure LineRegs.OnWalk (r : LineRegs) (t : Nat) : Prop where
  x0_le     : -32768 ≤ r.x0
  y0_range  : -32768 ≤ r.y0 ∧ r.y0 ≤ 32767
  x1_le     : r.x1 ≤ 32767
  y1_range  : -32768 ≤ r.y1 ∧ r.y1 ≤ 32767
  dx_eq     : r.dx = r.x1 - r.x0
  dx_nonneg : 0 ≤ r.dx
  dy_le     : -r.dx ≤ r.dy ∧ r.dy ≤ r.dx
  derr_eq   : r.derr = 2 * |r.dy|
  ystep_eq  : r.ystep = 1 ∨ r.ystep = -1
  x_eq      : r.x = r.x0 + t
  y_near    : -t ≤ r.y - r.y0 ∧ r.y - r.y0 ≤ t
  err_lower : 0 < r.dx → -r.dx < r.err
  err_upper : r.err ≤ r.dx
  err_zero  : r.dx = 0 → r.err = 0

/-- Steps 1 and 2 arrange the given endpoints in one of four ways: as given or with x and y exchanged, and either end
first (R171, R172). Then the first is not right of the second, and the secondary distance is not the longer one. -/
theorem LineRegs.setup_arrangement (x0 y0 x1 y1 : Int) (c : Colour) (r : LineRegs)
    (hr : LineRegs.setup x0 y0 x1 y1 c = r) :
    (r.x0 = x0 ∧ r.y0 = y0 ∧ r.x1 = x1 ∧ r.y1 = y1 ∨ r.x0 = x1 ∧ r.y0 = y1 ∧ r.x1 = x0 ∧ r.y1 = y0 ∨
      r.x0 = y0 ∧ r.y0 = x0 ∧ r.x1 = y1 ∧ r.y1 = x1 ∨ r.x0 = y1 ∧ r.y0 = x1 ∧ r.x1 = y0 ∧ r.y1 = x0) ∧
    r.x0 ≤ r.x1 ∧ |r.y1 - r.y0| ≤ r.x1 - r.x0 := by
  subst hr
  simp only [LineRegs.setup, isSteep, Int.abs_eq_natAbs, decide_eq_true_eq]
  split_ifs <;> omega

/-- Either step of the secondary coordinate is one pixel (R176). -/
theorem ystepOf_eq (y0 y1 : Int) : ystepOf y0 y1 = 1 ∨ ystepOf y0 y1 = -1 := by
  unfold ystepOf
  split
  · exact .inl rfl
  · exact .inr rfl

/-- The walk starts with error 0 at the start point (R174). -/
theorem LineRegs.onWalk_setup {x0 y0 x1 y1 : Int} {c : Colour} (h : (Instr.drawLine x0 y0 x1 y1 c).wf = true) :
    (LineRegs.setup x0 y0 x1 y1 c).OnWalk 0 := by
  simp only [Instr.wf, isOperand16, Bool.and_eq_true, decide_eq_true_eq] at h
  obtain ⟨ends, ordered, flat⟩ := LineRegs.setup_arrangement x0 y0 x1 y1 c _ rfl
  exact {
    x0_le := by omega
    y0_range := by omega
    x1_le := by omega
    y1_range := by omega
    dx_eq := rfl
    dx_nonneg := Int.sub_nonneg.2 ordered
    dy_le := abs_le.1 flat
    derr_eq := rfl
    ystep_eq := ystepOf_eq _ _
    x_eq := (Int.add_zero _).symm
    y_near := ⟨(Int.sub_self _).ge, (Int.sub_self _).le⟩
    err_lower := fun hd => Int.neg_neg_of_pos hd
    err_upper := Int.sub_nonneg.2 ordered
    err_zero := fun _ => rfl }

/-- The growth of the error at one position (R173): twice the secondary distance, so at most `2*dx`. -/
theorem LineRegs.OnWalk.derr_le {r : LineRegs} {t : Nat} (h : r.OnWalk t) : 0 ≤ r.derr ∧ r.derr ≤ 2 * r.dx := by
  rw [h.derr_eq]
  exact ⟨by positivity, Int.mul_le_mul_of_nonneg_left (abs_le.2 h.dy_le) (by decide)⟩

/-- An update keeps the bounds: the error grows by `derr` and, when that takes it above `dx`, falls by `2*dx`. -/
theorem LineRegs.OnWalk.advance {r : LineRegs} {t : Nat} (h : r.OnWalk t) : r.advance.OnWalk (t + 1) := by
  obtain ⟨derr_nonneg, derr_le⟩ := h.derr_le
  have dx_nonneg := h.dx_nonneg
  have ystep_eq := h.ystep_eq
  have x_eq := h.x_eq
  have y_near := h.y_near
  have err_lower := h.err_lower
  have err_upper := h.err_upper
  have err_zero := h.err_zero
  unfold LineRegs.advance
  split
  all_goals
    exact { h with
      x_eq := by push_cast; omega
      y_near := by push_cast; omega
      err_lower := by simp only; omega
      err_upper := by simp only; omega
      err_zero := by simp only; omega }

theorem LineRegs.OnWalk.after {r : LineRegs} (h : r.OnWalk 0) (t : Nat) : (r.after t).OnWalk t := by
  induction t with
  | zero => exact h
  | succ t ih => rw [LineRegs.after_succ]; exact ih.advance

/-- The endpoints, and so the number of positions, are the same all along a walk. -/
theorem LineRegs.after_positions (t : Nat) (r : LineRegs) : (r.after t).positions = r.positions := by
  induction t with
  | zero => rfl
  | succ t ih =>
    rw [LineRegs.after_succ, ← ih, LineRegs.advance]
    split <;> rfl

/-- Up to the last update every register lies in 19 signed bits (R31). -/
theorem LineRegs.OnWalk.fits {r : LineRegs} {t : Nat} (h : r.OnWalk t) (ht : t ≤ r.positions) : r.fits := by
  obtain ⟨derr_nonneg, derr_le⟩ := h.derr_le
  obtain ⟨x0_le, y0_range, x1_le, y1_range, dx_eq, dx_nonneg, dy_le, -, ystep_eq, x_eq, y_near, err_lower, err_upper,
    err_zero⟩ := h
  unfold LineRegs.positions at ht
  unfold LineRegs.fits fits19
  omega

/-- The registers `drawLine` leaves lie in 19 signed bits. -/
theorem LineRegs.fits_after_setup {x0 y0 x1 y1 : Int} {c : Colour} {t : Nat}
    (h : (Instr.drawLine x0 y0 x1 y1 c).wf = true) (ht : t ≤ (LineRegs.setup x0 y0 x1 y1 c).positions) :
    ((LineRegs.setup x0 y0 x1 y1 c).after t).fits :=
  ((LineRegs.onWalk_setup h).after t).fits (by rwa [LineRegs.after_positions])

/-- Settles O35: the bounds hold at the start of the walk and every update keeps them. -/
theorem rasterizerRegistersStayInBounds : Obligations.RasterizerRegistersStayInBounds := by
  rintro x0 y0 x1 y1 c t r h ht rfl
  have hw := (LineRegs.onWalk_setup h).after t
  obtain ⟨-, derr_le⟩ := hw.derr_le
  have dx_eq := hw.dx_eq
  have x0_le := hw.x0_le
  have x1_le := hw.x1_le
  have err_upper := hw.err_upper
  exact ⟨hw.dx_nonneg, by omega, abs_le.2 hw.dy_le, fun hd => ⟨hw.err_lower hd, err_upper⟩, hw.err_zero, by omega,
    LineRegs.fits_after_setup h ht⟩

end Sys2Proof.Machine
end

section
/-! PROOFS. Family 10_state.md, the instructions: one equation per case (R100 to R207), and what the loops of the flip, of
the line and of the encoder leave. -/

namespace Sys2Proof.Machine

/-! ### An instruction, case by case -/

theorem exec_create_invalid {w h : Int} (hwh : w ≤ 0 ∨ h ≤ 0) (s : State) :
    exec (.create w h) s = .next (s.complete .invalidDimension 0) := if_pos hwh

theorem exec_create_valid {w h : Int} (hwh : ¬(w ≤ 0 ∨ h ≤ 0)) (s : State) :
    exec (.create w h) s = .next ((s.allocate w h).complete .ok 0) := if_neg hwh

/-- Without a buffer every instruction but `create` answers `NoBuffer`; `encode` and `write` have begun an empty stream
(R41, R204). -/
theorem exec_noBuffer {i : Instr} (hi : ∀ w h, i ≠ .create w h) {s : State} (ha : s.alloc = false) :
    exec i s = .next ((if i.isStreamCommand then s.openStream else s).complete .noBuffer 0) := by
  cases i with
  | create w h => exact absurd rfl (hi w h)
  | _ => exact if_pos ha

section Buffer
variable {s : State} (ha : s.alloc = true)
include ha

theorem exec_setPixel_outside {x y : Int} (c : Colour) (hb : s.outOfBounds x y = true) :
    exec (.setPixel x y c) s = .next (s.complete .outOfBounds 0) := by
  simp [exec, execSetPixel, ha, hb]

theorem exec_setPixel_inside {x y : Int} (c : Colour) (hb : s.outOfBounds x y = false) :
    exec (.setPixel x y c) s = .next ((s.putPixel (x, y) c).complete .ok 0) := by
  simp [exec, execSetPixel, ha, hb, State.trySetPixel_eq]

theorem exec_getPixel_outside {x y : Int} (hb : s.outOfBounds x y = true) :
    exec (.getPixel x y) s = .next (s.complete .outOfBounds 0) := by
  simp [exec, execGetPixel, ha, hb]

theorem exec_getPixel_inside {x y : Int} (hb : s.outOfBounds x y = false) :
    exec (.getPixel x y) s =
      .next (s.complete .ok (col24 (colourOfBytes (s.memRead (s.pixelOffset x y) 3)))) := by
  simp [exec, execGetPixel, ha, hb]

theorem exec_flipVertically {t : State}
    (h : State.flipRows (s.height.toNat / 2) { s with flip := { s.flip with j := 0 } } = .ok t) :
    exec .flipVertically s = .next (t.complete .ok 0) := by
  simp [exec, execFlipVertically, ha, h]

theorem exec_drawLine {x0 y0 x1 y1 : Int} {c : Colour} {t : State}
    (h : State.lineWalk (LineRegs.setup x0 y0 x1 y1 c).positions
      { s with line := LineRegs.setup x0 y0 x1 y1 c } = .ok t) :
    exec (.drawLine x0 y0 x1 y1 c) s = .next (t.complete .ok 0) := by
  simp [exec, execDrawLine, ha, h]

theorem exec_encode : exec .encode s = s.openStream.emitRLE.finish := by
  simp [exec, execEncode, ha]

theorem exec_write (r : Bool) : exec (.write r) s =
    (((s.openStream.emitHeader r).andThen fun t => t.emitPayload r).andThen State.emitTrailer).finish := by
  simp [exec, execWrite, ha]

theorem exec_rawPacket (n : Nat) : exec (.rawPacket n) s =
    (State.emitChunk { s.drawPastEnd n with
      enc := { s.enc.startChunk with runLength := n, raw := true } }).proceed := by
  simp [exec, execRawPacket, State.issuePacket, ha]

theorem exec_runPacket (n : Nat) : exec (.runPacket n) s =
    (State.emitChunk { s.drawPastEnd n with
      enc := { s.enc.startChunk with runLength := n, raw := false } }).proceed := by
  simp [exec, execRunPacket, State.issuePacket, ha]

theorem exec_tgaHeader (r : Bool) : exec (.tgaHeader r) s = (s.emitHeader r).proceed := by
  simp [exec, execTgaHeader, ha]

theorem exec_tgaTrailer : exec .tgaTrailer s = s.emitTrailer.proceed := by
  simp [exec, execTgaTrailer, ha]

end Buffer

/-! ### The bytes of `MEM` that are listed (R33) -/

/-- In a canonical memory nothing is listed from an address on exactly when every byte there reads as unlisted. -/
theorem Memory.inside_iff {m : List Host.Cell} (hm : Memory.wf m) (n : Nat) :
    (∀ c ∈ m, c.1 < n) ↔ ∀ a, n ≤ a → Memory.read m a = 0 := by
  constructor
  · intro h a ha
    by_contra hne
    exact absurd (h _ ((Memory.mem_iff_read hm a _).2 ⟨hne, rfl⟩)) (Nat.not_lt.2 ha)
  · rintro h ⟨a, v⟩ hc
    obtain ⟨hv, hread⟩ := (Memory.mem_iff_read hm a v).1 hc
    by_contra hlt
    exact hv (hread.symm.trans (h a (Nat.not_lt.1 hlt)))

/-- Bytes written below an address list nothing from it on. -/
theorem Memory.inside_writeBytes {m : List Host.Cell} (hm : Memory.wf m) {n a : Nat} {vs : List Byte}
    (h : ∀ c ∈ m, c.1 < n) (hin : a + vs.length ≤ n) : ∀ c ∈ Memory.writeBytes m a vs, c.1 < n := by
  rw [Memory.inside_iff hm] at h
  rw [Memory.inside_iff (Memory.wf_writeBytes a vs hm)]
  intro b hb
  rw [Memory.read_writeBytes, if_neg (by omega), h b hb]

/-- The memory is canonical and inside its bounds: what the invariant says of `MEM`. -/
def State.MemOk (s : State) : Prop := Memory.wf s.mem ∧ ∀ c ∈ s.mem, c.1 < s.memSize

/-- An attempt at a point keeps the memory canonical and inside: the three bytes of a pixel in bounds exist (R54). -/
theorem State.MemOk.putPixel {s : State} (h : s.MemOk) (p : Int × Int) (c : Colour) : (s.putPixel p c).MemOk := by
  obtain ⟨x, y⟩ := p
  unfold State.putPixel
  cases hb : s.outOfBounds x y with
  | true => simpa using h
  | false =>
    obtain ⟨hx, hy, hx', hy'⟩ := State.outOfBounds_eq_false.1 hb
    lift x to Nat using hx
    lift y to Nat using hy
    obtain ⟨hwf, hin⟩ := h
    refine ⟨Memory.wf_writeBytes _ _ hwf, Memory.inside_writeBytes hwf hin ?_⟩
    rw [State.pixelOffset_nat]
    exact State.pixel_inside (by omega) (by omega)

/-- The attempts of a line change nothing but the memory, which stays canonical and inside. -/
theorem State.foldl_putPixel (ps : List (Int × Int)) (c : Colour) (s : State) :
    ∃ m, ps.foldl (fun t p => t.putPixel p c) s = { s with mem := m } ∧ (s.MemOk → { s with mem := m }.MemOk) := by
  induction ps generalizing s with
  | nil => exact ⟨s.mem, rfl, id⟩
  | cons p ps ih =>
    obtain ⟨m, heq, hok⟩ := ih (s.putPixel p c)
    exact ⟨m, heq, fun h => hok (h.putPixel p c)⟩

/-! ### The flip's loop (R105) -/

/-- `MEM` is its rows (R34, R35). -/
theorem State.memSize_eq_rows (s : State) : s.memSize = s.height.toNat * s.rowBytes := by
  simp only [State.memSize, State.npix, State.rowBytes]
  ring

/-- The flip's turns all succeed while the two rows differ. They change the memory below its end and the flip's own
registers; after the first one the scratch row holds a row. -/
theorem State.flipRows_spec (n : Nat) (s : State) (h : 2 * (s.flip.j + n) ≤ s.height.toNat) :
    ∃ m f, State.flipRows n s = .ok { s with mem := m, flip := f } ∧ f.j = s.flip.j + n ∧
      (f.scratch = s.flip.scratch ∨ f.scratch.length = s.rowBytes) ∧ (Memory.wf s.mem → Memory.wf m) ∧
      ∀ a, s.memSize ≤ a → Memory.read m a = s.byteAt a := by
  induction n generalizing s with
  | zero => exact ⟨s.mem, s.flip, rfl, rfl, .inl rfl, id, fun _ _ => rfl⟩
  | succ n ih =>
    obtain ⟨t, hswap, ht, hwf, hbytes⟩ := s.swapRows_eq (by omega)
    have outside : ∀ a, s.memSize ≤ a → t.byteAt a = s.byteAt a := by
      intro a ha
      rw [State.memSize_eq_rows] at ha
      have hlow : (s.flip.j + 1) * s.rowBytes ≤ s.height.toNat * s.rowBytes := Nat.mul_le_mul_right _ (by omega)
      have hhigh : (s.height.toNat - s.flip.j) * s.rowBytes ≤ s.height.toNat * s.rowBytes :=
        Nat.mul_le_mul_right _ (by omega)
      rw [hbytes, if_neg (by omega), if_neg (by omega)]
    obtain ⟨m, hm⟩ : ∃ m, t.mem = m := ⟨_, rfl⟩
    rw [hm] at ht
    subst ht
    obtain ⟨m', f, hrows, hj, hscratch, hwf', hbytes'⟩ := ih { s with
      mem := m
      flip := { scratch := s.bytesAt (s.flip.j * s.rowBytes) s.rowBytes, j := s.flip.j + 1 } } (by simp only; omega)
    refine ⟨m', f, ?_, ?_, .inr ?_, fun h => hwf' (hwf h), fun a ha => (hbytes' a ha).trans (outside a ha)⟩
    · rw [State.flipRows, hswap]
      exact hrows
    · rw [hj]
      exact Nat.add_right_comm _ 1 n
    · rcases hscratch with hs | hs
      · rw [hs, State.bytesAt_length]
      · exact hs

/-- So `flipVertically` always succeeds (R105): its turns stop short of the middle row. -/
theorem exec_flipVertically_spec {s : State} (ha : s.alloc = true) :
    ∃ m f, exec .flipVertically s = .next ({ s with mem := m, flip := f }.complete .ok 0) ∧
      f.j = s.height.toNat / 2 ∧ (f.scratch = s.flip.scratch ∨ f.scratch.length = s.rowBytes) ∧
      (Memory.wf s.mem → Memory.wf m) ∧ ∀ a, s.memSize ≤ a → Memory.read m a = s.byteAt a := by
  obtain ⟨m, f, hrows, hj, hrest⟩ := State.flipRows_spec (s.height.toNat / 2) { s with flip := { s.flip with j := 0 } }
    (by simp only; omega)
  exact ⟨m, f, exec_flipVertically ha hrows, hj.trans (Nat.zero_add _), hrest⟩

/-! ### The encoder's registers (R26, R29) -/

/-- A chunk that starts at a pixel is under way with that one pixel (R121). -/
theorem EncoderRegs.running_startChunk {e : EncoderRegs} {npix : Nat} (hn : e.npixels = npix)
    (hc : e.curpix < e.npixels) : e.startChunk.Running npix where
  npixels := hn
  start := rfl
  positive := Nat.le_refl 1
  capped := Nat.le_of_ble_eq_true rfl
  inside := hn ▸ hc
  leftPixel := rfl

/-- One chunk leaves the encoder's registers in their widths, in a picture whose pixels 30 bits can count. -/
theorem State.encodeChunk_fits (s : State) (hn : s.enc.npixels = s.npix) (hc : s.enc.curpix < s.enc.npixels)
    (hp : s.npix < 2 ^ 30) : s.encodeChunk.All fun t => t.enc.fits := by
  obtain ⟨e, he, h1, h2, h3, h4, h5, h6, h7⟩ := s.lookAhead_spec Config.maxChunk s.enc.startChunk
    (EncoderRegs.running_startChunk hn hc)
  have npixels_eq : e.npixels = s.enc.npixels := h1
  have curpix_eq : e.curpix = s.enc.curpix := h2
  have start_eq : e.chunkstart = 3 * s.enc.curpix := h3
  rw [State.encodeChunk, he]
  refine (State.emitChunk_all { s with enc := e }).mono ?_
  rw [State.pointerPast_inside (s := { s with enc := e }) h6]
  rintro t ⟨st, rfl⟩
  refine ⟨?_, ?_, ?_, ?_, ?_⟩ <;> simp only <;> omega

theorem Flow.All.and {P Q : State → Prop} {f : Flow} (hP : f.All P) (hQ : f.All Q) : f.All fun s => P s ∧ Q s := by
  cases f <;> exact ⟨hP, hQ⟩

theorem Flow.All.guard {p : Prop} {P : State → Prop} {f : Flow} (h : p → f.All P) : f.All fun s => p → P s := by
  cases f <;> exact h

/-- The packet loop keeps the encoder's registers in their widths. -/
theorem State.encodeChunks_fits (n : Nat) (s : State) (hn : s.enc.npixels = s.npix) (hc : s.enc.curpix ≤ s.npix)
    (hp : s.npix < 2 ^ 30) (hf : s.enc.fits) : (State.encodeChunks n s).All fun t => t.enc.fits := by
  induction n generalizing s with
  | zero => exact hf
  | succ n ih =>
    rw [State.encodeChunks]
    split
    · rename_i hlt
      refine ((s.encodeChunk_all hn hlt).and (s.encodeChunk_fits hn hlt hp)).andThen ?_ fun t h => h.2
      rintro t ⟨⟨⟨e, st, rfl⟩, hnp, -, hcp⟩, hft⟩
      exact ih _ hnp hcp hp hft
    · exact hf

/-- `EmitRLE` keeps the encoder's registers in their widths. -/
theorem State.emitRLE_fits (s : State) (hp : s.npix < 2 ^ 30) (hf : s.enc.fits) :
    s.emitRLE.All fun t => t.enc.fits :=
  State.encodeChunks_fits s.npix { s with enc := { s.enc with npixels := s.npix, curpix := 0 } } rfl (Nat.zero_le _) hp
    ⟨hp, Nat.two_pow_pos 30, hf.2.2⟩

end Sys2Proof.Machine
end

section
/-! PROOFS. Family 10_state.md, the invariant (R21, R22, R29, R31, R32, R34, R54, R208): everything an instruction can do,
and what every step so keeps. -/

namespace Sys2Proof.Machine

/-! ### The body of an instruction, before its epilogue -/

/-- All that the body of an instruction other than `create` may change: the memory, the working registers, the stream and
the count of free draws. -/
def Worked (s u : State) : Prop :=
  ∃ m e l f st k, u = { s with mem := m, enc := e, line := l, flip := f, stream := st, freeCount := k }

/-- What the body of an instruction with the given legality of its operands does: it stays inside `Worked`, and keeps the
invariant where the operands are legal. -/
structure Body (legal : Prop) (s u : State) : Prop where
  worked : Worked s u
  keeps  : legal → s.Inv → u.Inv

theorem Body.refl {legal : Prop} (s : State) : Body legal s s := ⟨⟨_, _, _, _, _, _, rfl⟩, fun _ => id⟩

theorem Body.trans {legal : Prop} {s t u : State} (h : Body legal s t) (h' : Body legal t u) : Body legal s u := by
  refine ⟨?_, fun hl hi => h'.keeps hl (h.keeps hl hi)⟩
  obtain ⟨_, _, _, _, _, _, rfl⟩ := h.worked
  obtain ⟨_, _, _, _, _, _, rfl⟩ := h'.worked
  exact ⟨_, _, _, _, _, _, rfl⟩

/-- The invariant after a body, from what it says of the memory and the working registers. -/
theorem State.Inv.worked {s u : State} (h : s.Inv) (hw : Worked s u) (hm : u.MemOk) (he : u.enc.fits)
    (hl : u.line.fits) (hf : u.flip.fits) : u.Inv := by
  obtain ⟨_, _, _, _, _, _, rfl⟩ := hw
  exact { h with memCanonical := hm.1, memInside := hm.2, encFits := he, lineFits := hl, flipFits := hf }

theorem State.Inv.memOk {s : State} (h : s.Inv) : s.MemOk := ⟨h.memCanonical, h.memInside⟩

/-- R26: 30 bits count the pixels of every buffer. -/
theorem State.Inv.npix_lt {s : State} (h : s.Inv) : s.npix < 2 ^ 30 := by
  obtain ⟨hw, hh⟩ := h.dimensions_le_maxDim
  calc s.npix ≤ Config.maxDim * Config.maxDim := Nat.mul_le_mul hw hh
    _ < 2 ^ 30 := by decide

/-! ### Every operation is such a body -/

theorem Body.openStream {legal : Prop} (s : State) : Body legal s s.openStream :=
  ⟨⟨_, _, _, _, _, _, rfl⟩, fun _ h => { h with }⟩

theorem Body.putPixel {legal : Prop} (s : State) (p : Int × Int) (c : Colour) : Body legal s (s.putPixel p c) := by
  have hw : Worked s (s.putPixel p c) := ⟨_, _, _, _, _, _, rfl⟩
  exact ⟨hw, fun _ h => h.worked hw (h.memOk.putPixel p c) h.encFits h.lineFits h.flipFits⟩

/-- Emission of bytes leaves every register and the memory. -/
theorem State.emit_body {legal : Prop} (s : State) (bs : List Byte) : (s.emit bs).All (Body legal s) := by
  refine (s.emit_all bs).mono ?_
  rintro _ ⟨st, rfl⟩
  exact ⟨⟨_, _, _, _, _, _, rfl⟩, fun _ h => { h with }⟩

/-- The packet loop leaves the memory, and the encoder's registers in their widths. -/
theorem State.emitRLE_body {legal : Prop} (s : State) : s.emitRLE.All (Body legal s) := by
  have hfits : s.emitRLE.All fun t => s.Inv → t.enc.fits := .guard fun h => s.emitRLE_fits h.npix_lt h.encFits
  refine (s.emitRLE_all.and hfits).mono ?_
  rintro _ ⟨⟨⟨e, st, rfl⟩, -, -⟩, hf⟩
  have hw : Worked s { s with enc := e, stream := st } := ⟨_, _, _, _, _, _, rfl⟩
  exact ⟨hw, fun _ h => h.worked hw h.memOk (hf h) h.lineFits h.flipFits⟩

/-- The payload of a file, in either form, leaves the memory, and the encoder's registers in their widths. -/
theorem State.emitPayload_body {legal : Prop} (s : State) (r : Bool) : (s.emitPayload r).All (Body legal s) := by
  cases r with
  | false => exact s.emit_body _
  | true => exact s.emitRLE_body

/-- One body after another. -/
theorem Flow.All.thenBody {legal : Prop} {s : State} {f : Flow} {k : State → Flow} (h : f.All (Body legal s))
    (hk : ∀ t, (k t).All (Body legal t)) : (f.andThen k).All (Body legal s) :=
  h.andThen (fun t ht => (hk t).mono fun _ hu => ht.trans hu) fun _ => id

/-- A stream command begins its emission with the empty stream (R41). -/
theorem Flow.All.afterOpenStream {legal : Prop} {s : State} {f : Flow} (h : f.All (Body legal s.openStream)) :
    f.All (Body legal s) := h.mono fun _ hu => (Body.openStream s).trans hu

/-- A packet of a count that a packet can have leaves the memory, and the encoder's registers in their widths. -/
theorem State.emitPacket_body (s : State) (n : Nat) (raw : Bool) :
    (State.emitChunk { s.drawPastEnd n with enc := { s.enc.startChunk with runLength := n, raw := raw } }).All
      (Body (isPacketCount n = true) s) := by
  obtain ⟨k, hk⟩ := s.drawPastEnd_eq n
  rw [hk]
  refine (State.emitChunk_all _).mono ?_
  rintro _ ⟨st, rfl⟩
  refine ⟨⟨_, _, _, _, _, _, rfl⟩, fun hn h => h.worked ⟨_, _, _, _, _, _, rfl⟩ h.memOk ?_ h.lineFits h.flipFits⟩
  have hpointer := State.pointerPast_le { s with
    enc := { s.enc.startChunk with runLength := n, raw := raw }, freeCount := k } n
  have hnpix : s.npix < 2 ^ 30 := h.npix_lt
  obtain ⟨hnp, hcp, -, -, -⟩ := h.encFits
  simp only [isPacketCount, Bool.and_eq_true, decide_eq_true_eq] at hn
  refine ⟨hnp, ?_, ?_, ?_, ?_⟩
  · exact hpointer.elim (fun hle => Nat.lt_of_le_of_lt hle hnpix) id
  all_goals simp only [EncoderRegs.startChunk]; omega

/-- The attempts of a line leave the memory canonical and inside, and its registers in their widths. -/
theorem State.lineWalk_body {x0 y0 x1 y1 : Int} {c : Colour} {r : LineRegs} (hr : LineRegs.setup x0 y0 x1 y1 c = r)
    (s : State) : ∃ u, State.lineWalk r.positions { s with line := r } = .ok u ∧
      Body ((Instr.drawLine x0 y0 x1 y1 c).wf = true) s u := by
  rw [State.lineWalk_eq]
  obtain ⟨m, hfold, hok⟩ := State.foldl_putPixel ((List.range r.positions).map fun t => (r.after t).point) r.colour
    { s with line := r }
  rw [hfold]
  refine ⟨_, rfl, ⟨_, _, _, _, _, _, rfl⟩, fun hwf h => ?_⟩
  refine h.worked ⟨_, _, _, _, _, _, rfl⟩ (hok h.memOk) h.encFits ?_ h.flipFits
  subst hr
  exact LineRegs.fits_after_setup hwf (Nat.le_refl _)

/-- What the flip leaves is such a body: no turn writes past the last row. -/
theorem Body.flip {legal : Prop} {s : State} {m : List Host.Cell} {f : FlipRegs} (hj : f.j = s.height.toNat / 2)
    (hscratch : f.scratch = s.flip.scratch ∨ f.scratch.length = s.rowBytes) (hwf : Memory.wf s.mem → Memory.wf m)
    (houtside : ∀ a, s.memSize ≤ a → Memory.read m a = s.byteAt a) : Body legal s { s with mem := m, flip := f } := by
  have hw : Worked s { s with mem := m, flip := f } := ⟨_, _, _, _, _, _, rfl⟩
  refine ⟨hw, fun _ h => h.worked hw ⟨hwf h.memCanonical, ?_⟩ h.encFits h.lineFits ⟨?_, ?_⟩⟩
  · refine (Memory.inside_iff (hwf h.memCanonical) _).2 fun a ha => (houtside a ha).trans ?_
    exact (Memory.inside_iff h.memCanonical _).1 h.memInside a ha
  · rcases hscratch with hs | hs
    · simpa only [hs] using h.flipFits.1
    · rw [hs]
      exact Nat.mul_le_mul_right 3 h.dimensions_le_maxDim.1
  · have hh : s.height.toNat ≤ 32767 := h.dimensions_le_maxDim.2
    simp only [hj]
    omega

/-! ### Everything an instruction can do -/

/-- The instruction goes on, or ends, in a state its body has reached. -/
def Ends (P : State → Prop) (r : Result) : Prop :=
  ∃ u, P u ∧ (r = .next u ∨ ∃ code data, r = .next (u.complete code data))

theorem Ends.completed {P : State → Prop} {u : State} (h : P u) (code : Code) (data : BitVec 24) :
    Ends P (.next (u.complete code data)) := ⟨u, h, .inr ⟨code, data, rfl⟩⟩

theorem Flow.All.finish_ends {P : State → Prop} {f : Flow} (h : f.All P) : Ends P f.finish := by
  obtain ⟨u, code, hu, -, hf⟩ := h.finish
  exact hf ▸ .completed hu code 0

theorem Flow.All.proceed_ends {P : State → Prop} {f : Flow} (h : f.All P) : Ends P f.proceed := by
  cases f with
  | go s => exact ⟨s, h, .inl rfl⟩
  | refused s => exact .completed h .ioError 0

/-- From any state and on any operands, every instruction but `create` goes on or ends in a state that its body has
reached; none faults. -/
theorem exec_ends {i : Instr} (hi : ∀ w h, i ≠ .create w h) (s : State) : Ends (Body (i.wf = true) s) (exec i s) := by
  cases ha : s.alloc with
  | false =>
    rw [exec_noBuffer hi ha]
    refine .completed ?_ _ _
    split
    · exact .openStream s
    · exact .refl s
  | true =>
    cases i with
    | create w h => exact absurd rfl (hi w h)
    | setPixel x y c =>
      cases hb : s.outOfBounds x y with
      | true => exact exec_setPixel_outside ha c hb ▸ .completed (.refl s) _ _
      | false => exact exec_setPixel_inside ha c hb ▸ .completed (.putPixel s _ c) _ _
    | getPixel x y =>
      cases hb : s.outOfBounds x y with
      | true => exact exec_getPixel_outside ha hb ▸ .completed (.refl s) _ _
      | false => exact exec_getPixel_inside ha hb ▸ .completed (.refl s) _ _
    | flipVertically =>
      obtain ⟨m, f, hexec, hj, hscratch, hwf, houtside⟩ := exec_flipVertically_spec ha
      exact hexec ▸ .completed (.flip hj hscratch hwf houtside) _ _
    | drawLine x0 y0 x1 y1 c =>
      obtain ⟨u, hwalk, hu⟩ := State.lineWalk_body rfl s
      exact exec_drawLine ha hwalk ▸ .completed hu _ _
    | encode =>
      rw [exec_encode ha]
      exact s.openStream.emitRLE_body.afterOpenStream.finish_ends
    | write r =>
      rw [exec_write ha]
      exact (((s.openStream.emit_body _).thenBody fun t => t.emitPayload_body r).thenBody
        fun t => t.emit_body _).afterOpenStream.finish_ends
    | rawPacket n => exact exec_rawPacket ha n ▸ (s.emitPacket_body n true).proceed_ends
    | runPacket n => exact exec_runPacket ha n ▸ (s.emitPacket_body n false).proceed_ends
    | tgaHeader r => exact exec_tgaHeader ha r ▸ (s.emit_body _).proceed_ends
    | tgaTrailer => exact exec_tgaTrailer ha ▸ (s.emit_body _).proceed_ends

/-- What a next state can be: that of a body, or for `create` the state with the new buffer, as it stands or completed. -/
theorem exec_next_cases {i : Instr} {s t : State} (ht : exec i s = .next t) :
    ∃ u, (Body (i.wf = true) s u ∨ ∃ w h, i = .create w h ∧ 0 < w ∧ 0 < h ∧ u = s.allocate w h) ∧
      (t = u ∨ ∃ code data, t = u.complete code data) := by
  by_cases hi : ∃ w h, i = .create w h
  · obtain ⟨w, h, rfl⟩ := hi
    by_cases hwh : w ≤ 0 ∨ h ≤ 0
    · cases (exec_create_invalid hwh s).symm.trans ht
      exact ⟨s, .inl (.refl s), .inr ⟨_, _, rfl⟩⟩
    · cases (exec_create_valid hwh s).symm.trans ht
      exact ⟨_, .inr ⟨w, h, rfl, by omega, by omega, rfl⟩, .inr ⟨_, _, rfl⟩⟩
  · push Not at hi
    obtain ⟨u, hu, heq | ⟨code, data, heq⟩⟩ := exec_ends hi s <;> cases heq.symm.trans ht
    · exact ⟨_, .inl hu, .inl rfl⟩
    · exact ⟨u, .inl hu, .inr ⟨code, data, rfl⟩⟩

/-! ### The dimensions and `FATAL` -/

theorem Worked.keepsDimensions {s u : State} (h : Worked s u) : KeepsDimensions s u := by
  obtain ⟨_, _, _, _, _, _, rfl⟩ := h
  exact ⟨rfl, rfl, rfl⟩

theorem Worked.fatal {s u : State} (h : Worked s u) : u.fatal = s.fatal := by
  obtain ⟨_, _, _, _, _, _, rfl⟩ := h
  rfl

theorem KeepsDimensions.complete {s u : State} (h : KeepsDimensions s u) (code : Code) (data : BitVec 24) :
    KeepsDimensions s (u.complete code data) :=
  ⟨h.width, h.height, (u.complete_alloc code data).trans h.alloc⟩

/-- The length of `MEM` is computed from the dimensions (R34). -/
theorem KeepsDimensions.memSize {s t : State} (h : KeepsDimensions s t) : t.memSize = s.memSize := by
  rw [State.memSize, State.npix, h.width, h.height]
  rfl

/-- Settles O13: neither the body nor the epilogue writes a dimension. -/
theorem onlyCreateChangesTheDimensions : Obligations.OnlyCreateChangesTheDimensions := by
  intro i s t hi h
  obtain ⟨u, hu | ⟨w, h', rfl, -⟩, ht⟩ := exec_next_cases h
  · have hkeeps : KeepsDimensions s t := by
      rcases ht with rfl | ⟨code, data, rfl⟩
      · exact hu.worked.keepsDimensions
      · exact hu.worked.keepsDimensions.complete code data
    exact ⟨hkeeps, hkeeps.memSize⟩
  · exact absurd rfl (hi w h')

/-- The epilogue never clears `FATAL` (R208). -/
theorem State.complete_fatal_of_fatal {s : State} (h : s.fatal = true) (code : Code) (data : BitVec 24) :
    (s.complete code data).fatal = true := by simp [h]

/-- No instruction clears `FATAL` (R22). -/
theorem exec_fatal {i : Instr} {s t : State} (h : exec i s = .next t) (hf : s.fatal = true) : t.fatal = true := by
  obtain ⟨u, hu, ht⟩ := exec_next_cases h
  have hfu : u.fatal = true := by
    rcases hu with hu | ⟨w, h', -, -, -, rfl⟩
    · exact hu.worked.fatal.trans hf
    · exact (s.allocate_fatal w h').trans hf
  rcases ht with rfl | ⟨code, data, rfl⟩
  · exact hfu
  · exact State.complete_fatal_of_fatal hfu code data

/-- Settles O12: the epilogue only ever sets `FATAL`, no body writes it, and of all steps only a reset does neither. -/
theorem fatalBitIsSticky : Obligations.FatalBitIsSticky := by
  intro s t h hf
  induction s using step_cases with
  | nothingPresented hp hi => cases (step_nothingPresented hp hi).symm.trans h; exact .inl hf
  | reset rest hp hi => exact .inr ⟨hp, rest, hi⟩
  | command w failAt rest i hp hi hd => exact .inl (exec_fatal ((step_command hp hi hd).symm.trans h) hf)
  | illegal w failAt rest r hp hi hd =>
    cases (step_illegal hp hi hd).symm.trans h
    exact .inl (State.complete_fatal_of_fatal (s := s.accept failAt rest) hf .illegalCommand 0)
  | nothingToIssue hp ht =>
    cases (step_nothingToIssue hp ht).symm.trans h
    exact .inl (State.complete_fatal_of_fatal hf _ _)
  | element e rest hp ht => exact .inl (exec_fatal ((step_element hp ht).symm.trans h) hf)

/-! ### The invariant -/

/-- The epilogue keeps the invariant: `STATUS` and the response get the same code, and nothing is left to issue. -/
theorem State.Inv.complete {s : State} (h : s.Inv) (code : Code) (data : BitVec 24) : (s.complete code data).Inv where
  memCanonical := h.memCanonical
  memInside := h.memInside
  noBuffer ha := h.noBuffer (by simpa using ha)
  buffer ha := h.buffer (by simpa using ha)
  lastIsCode := by
    rw [State.complete_last]
    cases code <;> decide
  rspAgrees r hr := by
    obtain rfl : { code := code, data := data } = r := by simpa using hr
    exact ⟨s.complete_last code data, fun hfatal => by simp [hfatal]⟩
  idleHasNothing _ := rfl
  todoWellFormed e he := absurd he (List.not_mem_nil)
  encFits := h.encFits
  lineFits := h.lineFits
  flipFits := h.flipFits

/-- An idle core that accepts a command keeps the invariant: it has nothing to issue. -/
theorem State.Inv.accept {s : State} (h : s.Inv) (failAt : Option Nat) (rest : List Input) :
    (s.accept failAt rest).Inv :=
  { h with idleHasNothing := fun hp => nomatch hp }

/-- A new buffer of legal dimensions has them in its registers, and lists no byte (R100, R101). -/
theorem State.Inv.allocate {s : State} (h : s.Inv) {w h' : Int} (hw : 0 < w ∧ w ≤ 32767) (hh : 0 < h' ∧ h' ≤ 32767) :
    (s.allocate w h').Inv := by
  have field_toNat {n : Int} (hn : 0 < n ∧ n ≤ 32767) : 1 ≤ (field16 n).toNat ∧ (field16 n).toNat ≤ 32767 := by
    simp only [field16, BitVec.toNat_ofInt]
    omega
  exact { h with
    memCanonical := Memory.wf_nil
    memInside := fun c hc => absurd hc List.not_mem_nil
    noBuffer := fun ha => absurd ((s.allocate_alloc w h').symm.trans ha) (by decide)
    buffer := fun _ => ⟨(field_toNat hw).1, (field_toNat hw).2, (field_toNat hh).1, (field_toNat hh).2⟩
    lastIsCode := s.allocate_last w h' ▸ h.lastIsCode
    rspAgrees := fun r hr => by rw [State.allocate_last, State.allocate_fatal]; exact h.rspAgrees r hr }

/-- A reset keeps the invariant, whatever the host still presents. -/
theorem State.takeReset_inv (s : State) (rest : List Input) : (s.takeReset rest).Inv :=
  { resetMeetsTheInvariant with }

/-- A busy core that takes its next element keeps the invariant. -/
theorem State.Inv.issue {s : State} (h : s.Inv) {e : StreamElement} {rest : List StreamElement} (hp : s.phase = .busy)
    (ht : s.todo = e :: rest) : { s with todo := rest }.Inv :=
  { h with
    idleHasNothing := fun hidle => nomatch hp.symm.trans hidle
    todoWellFormed := fun e' he' => h.todoWellFormed e' (ht ▸ List.mem_cons_of_mem e he') }

/-- Every instruction on legal operands keeps the invariant. -/
theorem exec_inv {i : Instr} {s t : State} (hwf : i.wf = true) (h : s.Inv) (ht : exec i s = .next t) : t.Inv := by
  obtain ⟨u, hu, hend⟩ := exec_next_cases ht
  have hinv : u.Inv := by
    rcases hu with hu | ⟨w, h', rfl, hw, hh, rfl⟩
    · exact hu.keeps hwf h
    · simp only [Instr.wf, isOperand16, Bool.and_eq_true, decide_eq_true_eq] at hwf
      exact h.allocate (by omega) (by omega)
  rcases hend with rfl | ⟨code, data, rfl⟩
  · exact hinv
  · exact hinv.complete code data

/-- Settles O3: each kind of step keeps the invariant, the operands of a command being legal because a word carried them,
and those of an element because the invariant says so. -/
theorem stepKeepsTheInvariant : Obligations.StepKeepsTheInvariant := by
  intro s t h ht
  induction s using step_cases with
  | nothingPresented hp hi => cases (step_nothingPresented hp hi).symm.trans ht; exact h
  | reset rest hp hi => cases (step_reset hp hi).symm.trans ht; exact s.takeReset_inv rest
  | command w failAt rest i hp hi hd =>
    exact exec_inv (decodeCommand_wf hd) (h.accept failAt rest) ((step_command hp hi hd).symm.trans ht)
  | illegal w failAt rest r hp hi hd =>
    cases (step_illegal hp hi hd).symm.trans ht
    exact (h.accept failAt rest).complete _ _
  | nothingToIssue hp hn => cases (step_nothingToIssue hp hn).symm.trans ht; exact h.complete _ _
  | element e rest hp hn =>
    exact exec_inv (h.todoWellFormed e (hn ▸ List.mem_cons_self)) (h.issue hp hn) ((step_element hp hn).symm.trans ht)

end Sys2Proof.Machine
end

section
/-! PROOFS. Family 10_state.md, what cannot be seen (R23, U4, U5): two runs of a command from states that differ in the
working registers alone. -/

namespace Sys2Proof.Machine

/-! ### States and flows that agree but for the working registers -/

/-- The states differ in their working registers at most, and of the encoder's a relation is known. -/
def Alike (P : EncoderRegs → EncoderRegs → Prop) (s t : State) : Prop :=
  ∃ e l f, t = { s with enc := e, line := l, flip := f } ∧ P s.enc e

/-- Nothing is known of the encoder's registers. -/
abbrev AnyRegs (_ _ : EncoderRegs) : Prop := True

/-- The registers that the packet loop carries from one chunk to the next are the same (R121). -/
def SamePointer (e e' : EncoderRegs) : Prop := e'.npixels = e.npixels ∧ e'.curpix = e.curpix

/-- The flows go on, or are refused, together, in related states. -/
inductive Flow.Rel (R : State → State → Prop) : Flow → Flow → Prop where
  | go {s t : State} (h : R s t) : Flow.Rel R (.go s) (.go t)
  | refused {s t : State} (h : R s t) : Flow.Rel R (.refused s) (.refused t)

theorem Flow.Rel.andThen {R R' : State → State → Prop} {f g : Flow} {k k' : State → Flow} (h : f.Rel R g)
    (hk : ∀ s t, R s t → (k s).Rel R' (k' t)) (hR : ∀ s t, R s t → R' s t) : (f.andThen k).Rel R' (g.andThen k') := by
  cases h with
  | go h => exact hk _ _ h
  | refused h => exact .refused (hR _ _ h)

theorem Flow.Rel.mono {R R' : State → State → Prop} {f g : Flow} (h : f.Rel R g) (hR : ∀ s t, R s t → R' s t) :
    f.Rel R' g := by
  cases h with
  | go h => exact .go (hR _ _ h)
  | refused h => exact .refused (hR _ _ h)

/-- Both runs complete, and all that can be seen of their ends is the same. -/
def SeenAlike (r r' : Result) : Prop := ∃ t u, r = .next t ∧ r' = .next u ∧ SameVisible t u

theorem Alike.complete {P : EncoderRegs → EncoderRegs → Prop} {s t : State} (h : Alike P s t) (code : Code)
    (data : BitVec 24) : SeenAlike (.next (s.complete code data)) (.next (t.complete code data)) := by
  obtain ⟨e, l, f, rfl, -⟩ := h
  exact ⟨_, _, rfl, rfl, rfl, rfl, rfl, rfl, rfl, rfl, rfl⟩

theorem Flow.Rel.finish {P : EncoderRegs → EncoderRegs → Prop} {f g : Flow} (h : f.Rel (Alike P) g) :
    SeenAlike f.finish g.finish := by
  cases h with
  | go h => exact h.complete .ok 0
  | refused h => exact h.complete .ioError 0

/-! ### Emission (R40) -/

/-- The sink takes the same bytes of both. -/
theorem Alike.emit {P : EncoderRegs → EncoderRegs → Prop} {s t : State} (h : Alike P s t) (bs : List Byte) :
    (s.emit bs).Rel (Alike P) (t.emit bs) := by
  obtain ⟨e, l, f, rfl, hP⟩ := h
  rw [State.emit_eq, State.emit_eq]
  cases s.sinkFailAt with
  | none => exact .go ⟨e, l, f, rfl, hP⟩
  | some k =>
    simp only
    split
    · exact .refused ⟨e, l, f, rfl, hP⟩
    · exact .go ⟨e, l, f, rfl, hP⟩

/-- Both read the same bytes. -/
theorem Alike.memRead {P : EncoderRegs → EncoderRegs → Prop} {s t : State} (h : Alike P s t) (a n : Nat) :
    t.memRead a n = s.memRead a n := by
  obtain ⟨e, l, f, rfl, -⟩ := h
  rfl

/-- Bytes, and then stored bytes, go out alike. -/
theorem Alike.emit_memRead {P : EncoderRegs → EncoderRegs → Prop} {s t : State} (h : Alike P s t) (bs : List Byte)
    (a n : Nat) : ((s.emit bs).andThen fun u => u.emit (u.memRead a n)).Rel (Alike P)
      ((t.emit bs).andThen fun u => u.emit (u.memRead a n)) :=
  (h.emit bs).andThen (fun u v huv => by rw [huv.memRead]; exact huv.emit _) fun _ _ => id

/-! ### The packet loop: `succ_eq` is written before it is read (R121, R123, R134) -/

/-- A look-ahead does not read `succ_eq`: it either ends before the first comparison, or that one writes it. -/
theorem State.lookAhead_succEq (s : State) (n : Nat) (e : EncoderRegs) (b : Bool) :
    ∃ b', s.lookAhead n { e with succEq := b } = { s.lookAhead n e with succEq := b' } := by
  cases n with
  | zero => exact ⟨b, rfl⟩
  | succ n =>
    have hm : { e with succEq := b }.mayExtend = e.mayExtend := rfl
    rw [State.lookAhead, State.lookAhead, hm]
    cases e.mayExtend with
    | false => exact ⟨b, rfl⟩
    | true => exact ⟨_, rfl⟩

/-- A look-ahead reads no working register but those it is given. -/
theorem State.lookAhead_regs (s : State) (n : Nat) (e e' : EncoderRegs) (l : LineRegs) (f : FlipRegs) :
    State.lookAhead { s with enc := e', line := l, flip := f } n e = s.lookAhead n e := by
  induction n generalizing e with
  | zero => rfl
  | succ n ih =>
    simp only [State.lookAhead, ih]
    rfl

/-- The end of a chunk does not read `succ_eq`. -/
theorem State.emitChunk_alike (s : State) (b : Bool) (l : LineRegs) (f : FlipRegs) :
    s.emitChunk.Rel (Alike SamePointer)
      (State.emitChunk { s with enc := { s.enc with succEq := b }, line := l, flip := f }) := by
  have hmoved : Alike SamePointer { s with enc := { s.enc with curpix := s.pointerPast s.enc.runLength } }
      { s with
        enc := { s.enc with curpix := s.pointerPast s.enc.runLength, succEq := b }, line := l, flip := f } :=
    ⟨_, l, f, rfl, rfl, rfl⟩
  unfold State.emitChunk
  cases s.enc.raw with
  | true => exact hmoved.emit_memRead _ _ _
  | false => exact hmoved.emit_memRead _ _ _

/-- A chunk writes all the registers it reads but the pixel count and the scan pointer (R121). -/
theorem Alike.encodeChunk {s t : State} (h : Alike SamePointer s t) :
    s.encodeChunk.Rel (Alike SamePointer) t.encodeChunk := by
  obtain ⟨e, l, f, rfl, hn, hc⟩ := h
  obtain ⟨b, hb⟩ := s.lookAhead_succEq Config.maxChunk s.enc.startChunk e.succEq
  have hstart : e.startChunk = { s.enc.startChunk with succEq := e.succEq } := by
    simp only [EncoderRegs.startChunk, hn, hc]
  have hlook : State.lookAhead { s with enc := e, line := l, flip := f } Config.maxChunk e.startChunk =
      { s.lookAhead Config.maxChunk s.enc.startChunk with succEq := b } := by
    rw [State.lookAhead_regs, hstart]
    exact hb
  rw [State.encodeChunk, State.encodeChunk, hlook]
  exact State.emitChunk_alike { s with enc := s.lookAhead Config.maxChunk s.enc.startChunk } b l f

theorem Alike.encodeChunks (n : Nat) {s t : State} (h : Alike SamePointer s t) :
    (State.encodeChunks n s).Rel (Alike SamePointer) (State.encodeChunks n t) := by
  induction n generalizing s t with
  | zero => exact .go h
  | succ n ih =>
    have hcond : (t.enc.curpix < t.enc.npixels) = (s.enc.curpix < s.enc.npixels) := by
      obtain ⟨e, l, f, rfl, hn, hc⟩ := h
      simp only [hn, hc]
    simp only [State.encodeChunks, hcond]
    split
    · exact h.encodeChunk.andThen (fun _ _ => ih) fun _ _ => id
    · exact .go h

/-- The packet loop writes the pixel count and the scan pointer first, so it depends on no register. -/
theorem Alike.emitRLE {s t : State} (h : Alike AnyRegs s t) : s.emitRLE.Rel (Alike AnyRegs) t.emitRLE := by
  obtain ⟨e, l, f, rfl, -⟩ := h
  have hstart : Alike SamePointer { s with enc := { s.enc with npixels := s.npix, curpix := 0 } }
      { s with enc := { e with npixels := s.npix, curpix := 0 }, line := l, flip := f } := ⟨_, l, f, rfl, rfl, rfl⟩
  exact (hstart.encodeChunks s.npix).mono fun _ _ ⟨e, l, f, heq, _⟩ => ⟨e, l, f, heq, trivial⟩

theorem Alike.openStream {P : EncoderRegs → EncoderRegs → Prop} {s t : State} (h : Alike P s t) :
    Alike P s.openStream t.openStream := by
  obtain ⟨e, l, f, rfl, hP⟩ := h
  exact ⟨e, l, f, rfl, hP⟩

theorem Alike.emitHeader {P : EncoderRegs → EncoderRegs → Prop} {s t : State} (h : Alike P s t) (r : Bool) :
    (s.emitHeader r).Rel (Alike P) (t.emitHeader r) := by
  have hbytes : t.width = s.width ∧ t.height = s.height := by
    obtain ⟨e, l, f, rfl, -⟩ := h
    exact ⟨rfl, rfl⟩
  rw [State.emitHeader, State.emitHeader, hbytes.1, hbytes.2]
  exact h.emit _

theorem Alike.emitPayload {s t : State} (h : Alike AnyRegs s t) (r : Bool) :
    (s.emitPayload r).Rel (Alike AnyRegs) (t.emitPayload r) := by
  cases r with
  | true => exact h.emitRLE
  | false =>
    have hsize : t.memSize = s.memSize := by
      obtain ⟨e, l, f, rfl, -⟩ := h
      rfl
    have hbytes := h.emit (s.memRead 0 s.memSize)
    simp only [State.emitPayload, Bool.false_eq_true, if_false, h.memRead, hsize]
    exact hbytes

/-! ### The walk and the flip -/

/-- An attempt at a point reads no working register. -/
theorem Alike.putPixel {P : EncoderRegs → EncoderRegs → Prop} {s t : State} (h : Alike P s t) (p : Int × Int)
    (c : Colour) : Alike P (s.putPixel p c) (t.putPixel p c) := by
  obtain ⟨e, l, f, rfl, hP⟩ := h
  exact ⟨e, l, f, rfl, hP⟩

/-- So the walk of a line leaves alike what was alike: it completes, and reads no register but those it is given. -/
theorem Alike.lineWalk {P : EncoderRegs → EncoderRegs → Prop} {s t : State} (h : Alike P s t) (n : Nat) (r : LineRegs) :
    ∃ u v, State.lineWalk n { s with line := r } = .ok u ∧ State.lineWalk n { t with line := r } = .ok v ∧
      Alike P u v := by
  refine ⟨_, _, State.lineWalk_eq n _, State.lineWalk_eq n _, ?_⟩
  have hstart : Alike P { s with line := r } { t with line := r } := by
    obtain ⟨e, l, f, rfl, hP⟩ := h
    exact ⟨e, r, f, rfl, hP⟩
  obtain ⟨e, l, f, heq, hP⟩ := List.foldl_rel hstart fun p _ u v huv => huv.putPixel p r.colour
  rw [heq]
  exact ⟨e, _, f, rfl, hP⟩

/-- A write to the memory reads no working register. -/
theorem State.memWrite_regs {s u : State} {a : Nat} {bs : List Byte} (h : s.memWrite a bs = .ok u) (e : EncoderRegs)
    (l : LineRegs) (f : FlipRegs) :
    State.memWrite { s with enc := e, line := l, flip := f } a bs = .ok { u with enc := e, line := l, flip := f } := by
  unfold State.memWrite at h
  split at h
  · cases h
    exact State.memWrite_ok ‹_›
  · cases h

/-- A turn of the flip reads its row counter and no other working register. -/
theorem State.swapRows_regs {s u : State} (h : s.swapRows = .ok u) (e : EncoderRegs) (l : LineRegs) (f : FlipRegs)
    (hj : f.j = s.flip.j) :
    State.swapRows { s with enc := e, line := l, flip := f } = .ok { u with enc := e, line := l } := by
  have hread (a n : Nat) : State.memRead { s with enc := e, line := l, flip := f } a n = s.memRead a n := rfl
  have hrow : State.rowBytes { s with enc := e, line := l, flip := f } = s.rowBytes := rfl
  unfold State.swapRows at h
  dsimp only at h
  split at h
  · rename_i s1 hw1
    split at h
    · rename_i s2 hw2
      cases h
      simp only [State.swapRows, hread, hrow, hj, State.memWrite_regs hw1 e l f, State.memWrite_regs hw2 e l f]
    · cases h
  · cases h

/-- The turns of the flip leave the same memory, whatever the scratch row and the other units' registers held. -/
theorem State.flipRows_regs (n : Nat) {s u : State} (h : State.flipRows n s = .ok u) (e : EncoderRegs) (l : LineRegs)
    (f : FlipRegs) (hj : f.j = s.flip.j) :
    ∃ f', State.flipRows n { s with enc := e, line := l, flip := f } =
      .ok { u with enc := e, line := l, flip := f' } := by
  induction n generalizing s f with
  | zero =>
    cases h
    exact ⟨f, rfl⟩
  | succ n ih =>
    cases hs : s.swapRows with
    | error r => simp [State.flipRows, hs] at h
    | ok t =>
      rw [State.flipRows, hs] at h
      rw [State.flipRows, State.swapRows_regs hs e l f hj]
      exact ih h t.flip rfl

/-! ### Every command -/

theorem Alike.alloc {P : EncoderRegs → EncoderRegs → Prop} {s t : State} (h : Alike P s t) : t.alloc = s.alloc := by
  obtain ⟨e, l, f, rfl, -⟩ := h
  rfl

theorem Alike.outOfBounds {P : EncoderRegs → EncoderRegs → Prop} {s t : State} (h : Alike P s t) (x y : Int) :
    t.outOfBounds x y = s.outOfBounds x y := by
  obtain ⟨e, l, f, rfl, -⟩ := h
  rfl

theorem Alike.pixelOffset {P : EncoderRegs → EncoderRegs → Prop} {s t : State} (h : Alike P s t) (x y : Int) :
    t.pixelOffset x y = s.pixelOffset x y := by
  obtain ⟨e, l, f, rfl, -⟩ := h
  rfl

theorem Alike.allocate {P : EncoderRegs → EncoderRegs → Prop} {s t : State} (h : Alike P s t) (w h' : Int) :
    Alike P (s.allocate w h') (t.allocate w h') := by
  obtain ⟨e, l, f, rfl, hP⟩ := h
  exact ⟨e, l, f, rfl, hP⟩

/-- With a buffer, two runs of `flipVertically` from states alike are seen alike: each starts with row counter 0. -/
theorem Alike.flipVertically_seenAlike {P : EncoderRegs → EncoderRegs → Prop} {s t : State} (h : Alike P s t)
    (ha : s.alloc = true) : SeenAlike (exec .flipVertically s) (exec .flipVertically t) := by
  have ha' : t.alloc = true := h.alloc.trans ha
  obtain ⟨e, l, f, rfl, -⟩ := h
  obtain ⟨m, f1, hrows, -⟩ := State.flipRows_spec (s.height.toNat / 2) { s with flip := { s.flip with j := 0 } }
    (by simp only; omega)
  obtain ⟨f2, hrows'⟩ := State.flipRows_regs _ hrows e l { f with j := 0 } rfl
  rw [exec_flipVertically ha hrows, exec_flipVertically ha' hrows']
  exact ⟨_, _, rfl, rfl, rfl, rfl, rfl, rfl, rfl, rfl, rfl⟩

/-- Two runs of a command from states alike both complete, and are seen alike. -/
theorem Alike.exec_seenAlike {s t : State} (h : Alike AnyRegs s t) {i : Instr} (hi : i.isCommand = true) :
    SeenAlike (exec i s) (exec i t) := by
  by_cases hc : ∃ w h, i = .create w h
  · obtain ⟨w, h', rfl⟩ := hc
    by_cases hwh : w ≤ 0 ∨ h' ≤ 0
    · rw [exec_create_invalid hwh, exec_create_invalid hwh]
      exact h.complete _ _
    · rw [exec_create_valid hwh, exec_create_valid hwh]
      exact (h.allocate w h').complete _ _
  push Not at hc
  cases ha : s.alloc with
  | false =>
    rw [exec_noBuffer hc ha, exec_noBuffer hc (h.alloc.trans ha)]
    split
    · exact h.openStream.complete _ _
    · exact h.complete _ _
  | true =>
    have ha' : t.alloc = true := h.alloc.trans ha
    cases i with
    | create w h' => exact absurd rfl (hc w h')
    | setPixel x y c =>
      cases hb : s.outOfBounds x y with
      | true =>
        rw [exec_setPixel_outside ha c hb, exec_setPixel_outside ha' c ((h.outOfBounds x y).trans hb)]
        exact h.complete _ _
      | false =>
        rw [exec_setPixel_inside ha c hb, exec_setPixel_inside ha' c ((h.outOfBounds x y).trans hb)]
        exact (h.putPixel _ c).complete _ _
    | getPixel x y =>
      cases hb : s.outOfBounds x y with
      | true =>
        rw [exec_getPixel_outside ha hb, exec_getPixel_outside ha' ((h.outOfBounds x y).trans hb)]
        exact h.complete _ _
      | false =>
        rw [exec_getPixel_inside ha hb, exec_getPixel_inside ha' ((h.outOfBounds x y).trans hb), h.pixelOffset, h.memRead]
        exact h.complete _ _
    | flipVertically => exact h.flipVertically_seenAlike ha
    | drawLine x0 y0 x1 y1 c =>
      obtain ⟨u, v, hu, hv, huv⟩ := h.lineWalk (LineRegs.setup x0 y0 x1 y1 c).positions (LineRegs.setup x0 y0 x1 y1 c)
      rw [exec_drawLine ha hu, exec_drawLine ha' hv]
      exact huv.complete _ _
    | encode =>
      rw [exec_encode ha, exec_encode ha']
      exact h.openStream.emitRLE.finish
    | write r =>
      rw [exec_write ha, exec_write ha']
      exact (((h.openStream.emitHeader r).andThen (fun _ _ huv => huv.emitPayload r) fun _ _ => id).andThen
        (fun _ _ huv => huv.emit trailerBytes) fun _ _ => id).finish
    | rawPacket _ | runPacket _ | tgaHeader _ | tgaTrailer => cases hi

/-- Settles O14: the two states are alike, and no command reads a working register that it has not written. -/
theorem resultsIgnoreTheWorkingRegisters : Obligations.ResultsIgnoreTheWorkingRegisters :=
  fun _ _ e l f hi => Alike.exec_seenAlike ⟨e, l, f, rfl, trivial⟩ hi

end Sys2Proof.Machine
end

section
/-! PROOFS. Family 20_memory.md, no instruction and no step stops (R54, R131, R183), and every command ends in the epilogue
(R25, R208). -/

namespace Sys2Proof.Machine

/-! ### Every instruction has a next state -/

/-- The instruction ends its command, in the epilogue (R208). -/
def Completes (r : Result) : Prop := ∃ u code data, r = .next (State.complete u code data)

theorem State.complete_completes (s : State) (code : Code) (data : BitVec 24) : Completes (.next (s.complete code data)) :=
  ⟨s, code, data, rfl⟩

theorem Flow.finish_completes (f : Flow) : Completes f.finish := by
  cases f <;> exact State.complete_completes _ _ _

theorem exec_create_completes (w h : Int) (s : State) : Completes (exec (.create w h) s) := by
  by_cases hwh : w ≤ 0 ∨ h ≤ 0
  · exact exec_create_invalid hwh s ▸ s.complete_completes _ _
  · exact exec_create_valid hwh s ▸ (s.allocate w h).complete_completes _ _

/-- From any state and on any operands a command ends in the epilogue: the flip and the line always reach their last turn,
and a stream command ends with `OK` or with the first refused byte (R131, R183, R206). -/
theorem exec_command_completes {i : Instr} (hi : i.isCommand = true) (s : State) : Completes (exec i s) := by
  by_cases hc : ∃ w h, i = .create w h
  · obtain ⟨w, h, rfl⟩ := hc
    exact exec_create_completes w h s
  push Not at hc
  cases ha : s.alloc with
  | false => exact exec_noBuffer hc ha ▸ State.complete_completes _ _ _
  | true =>
    cases i with
    | create w h => exact absurd rfl (hc w h)
    | setPixel x y c =>
      cases hb : s.outOfBounds x y with
      | true => exact exec_setPixel_outside ha c hb ▸ s.complete_completes _ _
      | false => exact exec_setPixel_inside ha c hb ▸ (s.putPixel (x, y) c).complete_completes _ _
    | getPixel x y =>
      cases hb : s.outOfBounds x y with
      | true => exact exec_getPixel_outside ha hb ▸ s.complete_completes _ _
      | false => exact exec_getPixel_inside ha hb ▸ s.complete_completes _ _
    | flipVertically =>
      obtain ⟨m, f, hexec, -⟩ := exec_flipVertically_spec ha
      exact hexec ▸ State.complete_completes _ _ _
    | drawLine x0 y0 x1 y1 c => exact exec_drawLine ha (State.lineWalk_eq _ _) ▸ State.complete_completes _ _ _
    | encode => exact exec_encode ha ▸ Flow.finish_completes _
    | write r => exact exec_write ha r ▸ Flow.finish_completes _
    | rawPacket _ | runPacket _ | tgaHeader _ | tgaTrailer => cases hi

/-- From any state and on any operands an instruction has a next state: it ends its command, or its element goes on. -/
theorem exec_next (i : Instr) (s : State) : ∃ t, exec i s = .next t := by
  by_cases hc : ∃ w h, i = .create w h
  · obtain ⟨w, h, rfl⟩ := hc
    obtain ⟨u, code, data, hu⟩ := exec_create_completes w h s
    exact ⟨_, hu⟩
  · push Not at hc
    obtain ⟨u, -, hu | ⟨code, data, hu⟩⟩ := exec_ends hc s <;> exact ⟨_, hu⟩

/-! ### Every step has a next state -/

/-- What a command word carries is a command, no stream element (R72). -/
theorem decodeCommand_isCommand {w : CommandWord} {i : Instr} (h : decodeCommand w = .ok i) : i.isCommand = true := by
  unfold decodeCommand at h
  split_ifs at h <;> cases h <;> rfl

/-- Settles O4: an idle core stays as it is, takes a reset, or answers a word by the epilogue, each of which leaves it
idle. -/
theorem idleStepAlwaysAnswers : Obligations.IdleStepAlwaysAnswers := by
  intro s hidle
  induction s using step_cases with
  | nothingPresented hp hi => exact ⟨_, step_nothingPresented hp hi, hidle⟩
  | reset rest hp hi => exact ⟨_, step_reset hp hi, rfl⟩
  | command w failAt rest i hp hi hd =>
    obtain ⟨u, code, data, hu⟩ := exec_command_completes (decodeCommand_isCommand hd) (s.accept failAt rest)
    exact ⟨_, (step_command hp hi hd).trans hu, rfl⟩
  | illegal w failAt rest r hp hi hd => exact ⟨_, step_illegal hp hi hd, rfl⟩
  | nothingToIssue hp _ | element _ _ hp _ => cases hidle.symm.trans hp

/-- A busy core ends its command or runs its next element (log 8). -/
theorem step_busy_next {s : State} (hp : s.phase = .busy) : ∃ t, step s = .next t := by
  cases ht : s.todo with
  | nil => exact ⟨_, step_nothingToIssue hp ht⟩
  | cons e rest =>
    rw [step_element hp ht]
    exact exec_next _ _

/-- Settles O53: every instruction has a next state, and so has a step of an idle core and of a busy one. -/
theorem noInstructionStops : Obligations.NoInstructionStops := by
  refine ⟨exec_next, fun s => ?_⟩
  cases hp : s.phase with
  | idle =>
    obtain ⟨t, ht, -⟩ := idleStepAlwaysAnswers s hp
    exact ⟨t, ht⟩
  | busy => exact step_busy_next hp

end Sys2Proof.Machine
end

section
/-! PROOFS. Family 20_memory.md, pixels (R53, R57, R60): a pixel of the picture after a pixel was put, and what `getPixel`
answers of it. -/

namespace Sys2Proof.Machine

/-- Pixels of one row width with the same place in scan order are the same pixel (R35, R53). -/
theorem scanIndex_inj {w x y px py : Nat} (hx : x < w) (hpx : px < w) :
    px + py * w = x + y * w ↔ px = x ∧ py = y := by
  refine ⟨fun h => ?_, fun ⟨hxx, hyy⟩ => by rw [hxx, hyy]⟩
  have hcol : px = x := by
    have hmod := congrArg (· % w) h
    simpa only [Nat.add_mul_mod_self_right, Nat.mod_eq_of_lt hpx, Nat.mod_eq_of_lt hx] using hmod
  subst hcol
  exact ⟨rfl, Nat.eq_of_mul_eq_mul_right (Nat.zero_lt_of_lt hx) (Nat.add_left_cancel h)⟩

/-- A pixel is the colour of its three bytes (R50). -/
theorem State.pixel_eq (s : State) (i : Nat) :
    s.pixel i = { blue := s.byteAt (3 * i), green := s.byteAt (3 * i + 1), red := s.byteAt (3 * i + 2) } := rfl

/-- Writing the three bytes of one pixel writes that pixel and no other (R57, R60). -/
theorem State.pixel_writeBytes (s : State) (c : Colour) (i j : Nat) :
    State.pixel { s with mem := Memory.writeBytes s.mem (3 * i) (colourBytes c) } j = if j = i then c else s.pixel j := by
  have hlen : (colourBytes c).length = 3 := rfl
  simp only [State.pixel_eq, State.byteAt, Memory.read_writeBytes, hlen]
  by_cases hij : j = i
  · subst hij
    simp [colourBytes]
  · rw [if_neg hij, if_neg (by omega), if_neg (by omega), if_neg (by omega)]

/-- After a pixel in bounds was put it has the colour, and every other pixel of the picture is as before (R60, R102). -/
theorem State.pixel_putPixel {s : State} {x y px py : Nat} (hx : x < s.width.toNat) (hy : y < s.height.toNat)
    (hpx : px < s.width.toNat) (c : Colour) :
    (s.putPixel (x, y) c).pixel (px + py * s.width.toNat) =
      if px = x ∧ py = y then c else s.pixel (px + py * s.width.toNat) := by
  have hin : s.outOfBounds x y = false := State.outOfBounds_eq_false.2 (by omega)
  simp only [State.putPixel, hin, Bool.false_eq_true, if_false, State.pixelOffset_nat, Nat.mul_comm _ 3,
    State.pixel_writeBytes, scanIndex_inj hx hpx]

/-- In bounds, `getPixel` answers the pixel of the picture (R104). -/
theorem exec_getPixel_pixel {s : State} (ha : s.alloc = true) {x y : Nat} (hx : x < s.width.toNat)
    (hy : y < s.height.toNat) :
    exec (.getPixel x y) s = .next (s.complete .ok (col24 (s.pixel (x + y * s.width.toNat)))) := by
  rw [exec_getPixel_inside ha (State.outOfBounds_eq_false.2 (by omega)), State.pixelOffset_nat,
    State.memRead_inside (State.pixel_inside hx hy), Nat.mul_comm _ 3]
  rfl

/-- What `getPixel` answers in bounds after `setPixel` wrote a pixel: its colour there, the pixel as before elsewhere. -/
theorem exec_getPixel_putPixel {s : State} (ha : s.alloc = true) {x y px py : Nat} (hx : x < s.width.toNat)
    (hy : y < s.height.toNat) (hpx : px < s.width.toNat) (hpy : py < s.height.toNat) (c : Colour) :
    exec (.getPixel px py) ((s.putPixel (x, y) c).complete .ok 0) =
      .next (((s.putPixel (x, y) c).complete .ok 0).complete .ok
        (col24 (if px = x ∧ py = y then c else s.pixel (px + py * s.width.toNat)))) := by
  rw [← State.pixel_putPixel hx hy hpx c]
  have halloc : ((s.putPixel (x, y) c).complete .ok 0).alloc = true := (State.complete_alloc _ _ _).trans ha
  exact exec_getPixel_pixel halloc hpx hpy

/-- Settles O26: `setPixel` has put the colour at its pixel and left every other pixel, and `getPixel` answers pixels. -/
theorem getPixelReadsWhatSetPixelWrote : Obligations.GetPixelReadsWhatSetPixelWrote := by
  intro s x y c ha hx hy
  refine ⟨_, exec_setPixel_inside ha c (State.outOfBounds_eq_false.2 (by omega)), ?_, fun px py hpx hpy hne => ?_⟩
  · refine ⟨_, exec_getPixel_putPixel ha hx hy hx hy c, ?_⟩
    rw [if_pos ⟨rfl, rfl⟩]
    rfl
  · refine ⟨_, _, exec_getPixel_putPixel ha hx hy hpx hpy c, exec_getPixel_pixel ha hpx hpy, ?_⟩
    rw [if_neg hne]
    rfl

end Sys2Proof.Machine
end

section
/-! PROOFS. Family 20_memory.md, the stream commands (R65): each emits bytes that the buffer alone determines, whatever the
sink makes of them, and changes nothing but the encoder's registers and the stream on the way. -/

namespace Sys2Proof.Machine

/-! ### Emission of some bytes -/

/-- Emission of bytes in two parts (R15). -/
theorem State.emit_append (s : State) (bs bs' : List Byte) :
    s.emit (bs ++ bs') = (s.emit bs).andThen fun t => t.emit bs' := by
  induction bs generalizing s with
  | nil => rfl
  | cons b bs ih =>
    simp only [List.cons_append, State.emit]
    split
    · rfl
    · exact ih _

/-- When the sink takes all, all of the bytes are on the stream. -/
theorem State.emit_go {s t : State} {bs : List Byte} (h : s.emit bs = .go t) : t = { s with stream := s.stream ++ bs } := by
  rw [State.emit_eq] at h
  split at h
  · cases h; rfl
  · split at h <;> cases h
    rfl

/-- The sink takes the same bytes whatever the encoder's registers hold. -/
theorem State.emit_go_enc {s t : State} {bs : List Byte} (h : s.emit bs = .go t) (e : EncoderRegs) :
    State.emit { s with enc := e } bs = .go { t with enc := e } := by
  induction bs generalizing s with
  | nil => cases h; rfl
  | cons b bs ih =>
    simp only [State.emit] at h ⊢
    split at h
    · cases h
    · rw [if_neg ‹_›]
      exact ih h

/-- What stored bytes are read does not depend on what was emitted before. -/
theorem State.emit_andThen_memRead (s : State) (bs : List Byte) (a n : Nat) :
    ((s.emit bs).andThen fun t => t.emit (t.memRead a n)) = s.emit (bs ++ s.memRead a n) := by
  rw [State.emit_append]
  cases hf : s.emit bs with
  | refused t => rfl
  | go t =>
    cases State.emit_go hf
    rfl

/-- The flow is the emission of the bytes in the state, but for what the encoder's registers then hold. -/
def Flow.Emits (f : Flow) (s : State) (bs : List Byte) : Prop := ∃ e, f = State.emit { s with enc := e } bs

theorem State.emit_emits (s : State) (bs : List Byte) : (s.emit bs).Emits s bs := ⟨s.enc, rfl⟩

/-- Emission after emission. -/
theorem State.emit_andThen_emits {s : State} {bs bs' : List Byte} {k : State → Flow}
    (hk : (k { s with stream := s.stream ++ bs }).Emits { s with stream := s.stream ++ bs } bs') :
    ((s.emit bs).andThen k).Emits s (bs ++ bs') := by
  cases hf : s.emit bs with
  | refused t =>
    refine ⟨s.enc, ?_⟩
    have happ := s.emit_append bs bs'
    rw [hf] at happ
    exact happ.symm
  | go t =>
    cases State.emit_go hf
    obtain ⟨e, he⟩ := hk
    refine ⟨e, ?_⟩
    rw [State.emit_append, State.emit_go_enc hf e]
    exact he

/-- Bytes emitted after a flow that emits. -/
theorem Flow.Emits.andThen_emit {f : Flow} {s : State} {bs : List Byte} (h : f.Emits s bs) (bs' : List Byte) :
    (f.andThen fun t => t.emit bs').Emits s (bs ++ bs') := by
  obtain ⟨e, rfl⟩ := h
  exact ⟨e, (State.emit_append _ _ _).symm⟩

/-! ### States with the same buffer -/

/-- The states have the same dimensions and the same memory. -/
structure SameBuffer (s t : State) : Prop where
  width  : t.width = s.width
  height : t.height = s.height
  mem    : t.mem = s.mem

section SameBuffer
variable {s t : State} (h : SameBuffer s t)
include h

theorem SameBuffer.npix : t.npix = s.npix := by rw [State.npix, State.npix, h.width, h.height]

theorem SameBuffer.memSize : t.memSize = s.memSize := by rw [State.memSize, State.memSize, h.npix]

/-- Inside `MEM`, both read the same bytes. -/
theorem SameBuffer.memRead {a n : Nat} (ha : a + n ≤ s.memSize) : t.memRead a n = s.memRead a n := by
  rw [State.memRead_inside ha, State.memRead_inside (h.memSize ▸ ha), State.bytesAt_congr h.mem]

end SameBuffer

/-! ### The bytes of a chunk -/

/-- A chunk that may be extended is under way with one pixel more (R121). -/
theorem EncoderRegs.Running.extend {e : EncoderRegs} {npix : Nat} (h : e.Running npix) (hm : e.mayExtend = true)
    (equal : Bool) : { e.compare equal with runLength := (e.compare equal).runLength + 1 }.Running npix := by
  obtain ⟨npixels, start, positive, capped, inside, leftPixel⟩ := h
  rw [EncoderRegs.mayExtend_iff] at hm
  constructor <;> simp only [EncoderRegs.compare] <;> omega

/-- A look-ahead compares pixels of the buffer only (R54), so it goes the same way wherever the buffer is the same. -/
theorem SameBuffer.lookAhead {s t : State} (h : SameBuffer s t) (n : Nat) {e : EncoderRegs} (hr : e.Running s.npix) :
    t.lookAhead n e = s.lookAhead n e := by
  induction n generalizing e with
  | zero => rfl
  | succ n ih =>
    rw [State.lookAhead, State.lookAhead]
    by_cases hm : e.mayExtend = true
    · have hinside : e.curbyte + 3 + 3 ≤ s.memSize := by
        obtain ⟨hnext, -⟩ := e.mayExtend_iff.1 hm
        rw [hr.npixels] at hnext
        have hpositive := hr.positive
        rw [State.memSize, hr.leftPixel]
        omega
      have hleft : t.memRead e.curbyte 3 = s.memRead e.curbyte 3 := h.memRead (by omega)
      have hright : t.memRead (e.curbyte + 3) 3 = s.memRead (e.curbyte + 3) 3 := h.memRead hinside
      simp only [hleft, hright, ih (hr.extend hm _)]
    · rw [if_neg hm, if_neg hm]

/-- The count byte of the chunk in the encoder's registers, then its pixels, one for a run (R79, R80, R121). -/
def State.chunkBytes (s : State) (e : EncoderRegs) : List Byte :=
  if e.raw then rawCountByte e.runLength :: s.memRead e.chunkstart (3 * e.runLength)
  else runCountByte e.runLength :: s.memRead e.chunkstart 3

/-- The encoder's registers with the scan pointer moved past the chunk (R121). -/
def EncoderRegs.pastChunk (e : EncoderRegs) : EncoderRegs := { e with curpix := e.curpix + e.runLength }

/-- The end of a chunk inside the buffer emits its bytes, the scan pointer having moved past it (R121, R127). -/
theorem State.emitChunk_eq {s : State} {e : EncoderRegs} (h : e.curpix + e.runLength ≤ s.npix) :
    State.emitChunk { s with enc := e } =
      State.emit { s with enc := e.pastChunk } (s.chunkBytes e) := by
  have hp : State.pointerPast { s with enc := e } e.runLength = e.curpix + e.runLength := State.pointerPast_inside h
  unfold State.emitChunk State.chunkBytes
  simp only [hp]
  split <;> rw [State.emit_andThen_memRead] <;> rfl

/-- The bytes of a chunk inside `MEM` do not depend on `succ_eq`. -/
theorem SameBuffer.chunkBytes {s t : State} (h : SameBuffer s t) {e : EncoderRegs} (hpos : 1 ≤ e.runLength)
    (hin : e.chunkstart + 3 * e.runLength ≤ s.memSize) (b : Bool) :
    t.chunkBytes { e with succEq := b } = s.chunkBytes e := by
  have hraw : t.memRead e.chunkstart (3 * e.runLength) = s.memRead e.chunkstart (3 * e.runLength) := h.memRead hin
  have hrun : t.memRead e.chunkstart 3 = s.memRead e.chunkstart 3 := h.memRead (by omega)
  simp only [State.chunkBytes, hraw, hrun]

/-! ### The packet loop -/

/-- One chunk from the same scan pointer emits the same bytes and leaves the same scan pointer (R121, R127). -/
theorem SameBuffer.encodeChunk {s t : State} (h : SameBuffer s t) (hp : SamePointer s.enc t.enc)
    (hn : s.enc.npixels = s.npix) (hc : s.enc.curpix < s.enc.npixels) :
    ∃ e e' bs, s.encodeChunk = State.emit { s with enc := e } bs ∧ t.encodeChunk = State.emit { t with enc := e' } bs ∧
      SamePointer e e' ∧ e.npixels = s.npix ∧ e.curpix ≤ s.npix := by
  obtain ⟨hnp, hcp⟩ := hp
  obtain ⟨c, hlook, hnpixels, hcurpix, hchunk, hpos, -, hinside, -⟩ := s.lookAhead_spec Config.maxChunk _
    (EncoderRegs.running_startChunk hn hc)
  obtain ⟨b, hlook'⟩ := s.lookAhead_succEq Config.maxChunk s.enc.startChunk t.enc.succEq
  have hstart : t.enc.startChunk = { s.enc.startChunk with succEq := t.enc.succEq } := by
    simp only [EncoderRegs.startChunk, hnp, hcp]
  have hlookt : t.lookAhead Config.maxChunk t.enc.startChunk = { c with succEq := b } := by
    rw [h.lookAhead _ (EncoderRegs.running_startChunk (hnp.trans hn) (by omega)), hstart, hlook', hlook]
  have hchunkstart : c.chunkstart = 3 * c.curpix := hchunk.trans (congrArg (3 * ·) hcurpix.symm)
  have hbytes := h.chunkBytes hpos (by rw [State.memSize]; omega) b
  refine ⟨c.pastChunk, { c with succEq := b }.pastChunk, s.chunkBytes c, ?_, ?_, ⟨rfl, rfl⟩, hnpixels.trans hn,
    hinside⟩
  · rw [State.encodeChunk, hlook]
    exact State.emitChunk_eq hinside
  · rw [State.encodeChunk, hlookt, ← hbytes]
    exact State.emitChunk_eq (e := { c with succEq := b }) (h.npix ▸ hinside)

/-- The packet loop emits bytes that the buffer and the scan pointer determine (R65, R121). -/
theorem SameBuffer.encodeChunks (n : Nat) {s t : State} (h : SameBuffer s t) (hp : SamePointer s.enc t.enc)
    (hn : s.enc.npixels = s.npix) (hc : s.enc.curpix ≤ s.npix) :
    ∃ bs, (State.encodeChunks n s).Emits s bs ∧ (State.encodeChunks n t).Emits t bs := by
  induction n generalizing s t with
  | zero => exact ⟨[], s.emit_emits [], t.emit_emits []⟩
  | succ n ih =>
    have hcond : t.enc.curpix < t.enc.npixels ↔ s.enc.curpix < s.enc.npixels := by rw [hp.1, hp.2]
    by_cases hlt : s.enc.curpix < s.enc.npixels
    · rw [State.encodeChunks, State.encodeChunks, if_pos hlt, if_pos (hcond.2 hlt)]
      obtain ⟨e, e', bs, hs, ht, hp', hn', hc'⟩ := h.encodeChunk hp hn hlt
      rw [hs, ht]
      obtain ⟨bs', hs', ht'⟩ := ih (s := { s with enc := e, stream := s.stream ++ bs })
        (t := { t with enc := e', stream := t.stream ++ bs }) ⟨h.width, h.height, h.mem⟩ hp' hn' hc'
      exact ⟨bs ++ bs', State.emit_andThen_emits (s := { s with enc := e }) hs',
        State.emit_andThen_emits (s := { t with enc := e' }) ht'⟩
    · rw [State.encodeChunks, State.encodeChunks, if_neg hlt, if_neg (mt hcond.1 hlt)]
      exact ⟨[], s.emit_emits [], t.emit_emits []⟩

/-- `EmitRLE` emits bytes that the buffer determines (R65, R121). -/
theorem SameBuffer.emitRLE {s t : State} (h : SameBuffer s t) : ∃ bs, s.emitRLE.Emits s bs ∧ t.emitRLE.Emits t bs := by
  have hstart : SameBuffer { s with enc := { s.enc with npixels := s.npix, curpix := 0 } }
      { t with enc := { t.enc with npixels := t.npix, curpix := 0 } } := ⟨h.width, h.height, h.mem⟩
  rw [State.emitRLE, State.emitRLE, h.npix]
  exact (h.npix ▸ hstart).encodeChunks s.npix ⟨rfl, rfl⟩ rfl (Nat.zero_le _)

/-- So does the payload of a file, in either form (R150, R151). -/
theorem SameBuffer.emitPayload {s t : State} (h : SameBuffer s t) (r : Bool) :
    ∃ bs, (s.emitPayload r).Emits s bs ∧ (t.emitPayload r).Emits t bs := by
  cases r with
  | true => exact h.emitRLE
  | false =>
    have hbytes : t.memRead 0 t.memSize = s.memRead 0 s.memSize := by rw [h.memSize, h.memRead (Nat.zero_add _).le]
    exact ⟨_, s.emit_emits _, hbytes ▸ t.emit_emits _⟩

/-- And so does a whole file (R82, R86, R150). -/
theorem SameBuffer.emitFile {s t : State} (h : SameBuffer s t) (r : Bool) :
    ∃ bs, (((s.emitHeader r).andThen fun u => u.emitPayload r).andThen State.emitTrailer).Emits s bs ∧
      (((t.emitHeader r).andThen fun u => u.emitPayload r).andThen State.emitTrailer).Emits t bs := by
  rw [State.emitHeader, State.emitHeader, h.width, h.height]
  generalize headerBytes (Config.typeCode r) s.width s.height = header
  obtain ⟨bs, hs, ht⟩ := SameBuffer.emitPayload (s := { s with stream := s.stream ++ header })
    (t := { t with stream := t.stream ++ header }) ⟨h.width, h.height, h.mem⟩ r
  exact ⟨_, (State.emit_andThen_emits hs).andThen_emit trailerBytes,
    (State.emit_andThen_emits ht).andThen_emit trailerBytes⟩

/-! ### The stream commands -/

/-- Two emissions of the same bytes to sinks that answer the same end alike (R40, R120). -/
theorem Flow.Emits.finish {s t : State} {f g : Flow} {bs : List Byte} (hf : f.Emits s bs) (hg : g.Emits t bs)
    (hsink : t.sinkFailAt = s.sinkFailAt) (hstream : t.stream = s.stream) :
    ∃ e e' st code, f.finish = .next ({ s with enc := e, stream := st }.complete code 0) ∧
      g.finish = .next ({ t with enc := e', stream := st }.complete code 0) := by
  obtain ⟨e, rfl⟩ := hf
  obtain ⟨e', rfl⟩ := hg
  rw [State.emit_eq, State.emit_eq]
  simp only [hsink, hstream]
  cases s.sinkFailAt with
  | none => exact ⟨e, e', _, _, rfl, rfl⟩
  | some k =>
    simp only
    split <;> exact ⟨e, e', _, _, rfl, rfl⟩

/-- A stream command leaves all but the encoder's registers and the stream to the epilogue, and two of them with the same
buffer and the same answers of the sink end with the same stream and the same code. -/
theorem SameBuffer.exec_streamCommand {s t : State} (h : SameBuffer s t) {i : Instr} (hi : i.isStreamCommand = true)
    (halloc : t.alloc = s.alloc) (hsink : t.sinkFailAt = s.sinkFailAt) :
    ∃ e e' st code, exec i s = .next ({ s with enc := e, stream := st }.complete code 0) ∧
      exec i t = .next ({ t with enc := e', stream := st }.complete code 0) := by
  have hopen : SameBuffer s.openStream t.openStream := ⟨h.width, h.height, h.mem⟩
  cases ha : s.alloc with
  | false =>
    have hc (w h : Int) : i ≠ .create w h := by
      rintro rfl
      cases hi
    rw [exec_noBuffer hc ha, exec_noBuffer hc (halloc.trans ha), if_pos hi, if_pos hi]
    exact ⟨s.enc, t.enc, [], _, rfl, rfl⟩
  | true =>
    have ha' : t.alloc = true := halloc.trans ha
    cases i with
    | encode =>
      rw [exec_encode ha, exec_encode ha']
      obtain ⟨bs, hs, ht⟩ := hopen.emitRLE
      have hend := hs.finish ht hsink rfl
      exact hend
    | write r =>
      rw [exec_write ha, exec_write ha']
      obtain ⟨bs, hs, ht⟩ := hopen.emitFile r
      have hend := hs.finish ht hsink rfl
      exact hend
    | _ => cases hi

/-- Settles O43: the stream and the code are those of any state with the same buffer and sink, and nothing else is written
but the encoder's registers and what the epilogue writes. -/
theorem streamCommandsOnlyReadTheBuffer : Obligations.StreamCommandsOnlyReadTheBuffer := by
  intro i s s' hi hwidth hheight hmem halloc hsink
  obtain ⟨e, e', st, code, hs, hs'⟩ := SameBuffer.exec_streamCommand ⟨hwidth, hheight, hmem⟩ hi halloc hsink
  have hdims : KeepsDimensions s { s with enc := e, stream := st } := ⟨rfl, rfl, rfl⟩
  exact ⟨_, _, hs, hs', rfl, rfl, rfl, hdims.complete code 0, ⟨rfl, rfl⟩, rfl, rfl⟩

end Sys2Proof.Machine
end

section
/-! PROOFS. Family 30_encoding.md, the command word (R71 to R75): one equation per opcode, the bits that a format reads, and
the opcode as that which selects the command. -/

namespace Sys2Proof

/-! ### One equation per opcode (R72) -/

section Opcodes
variable {w : CommandWord}

theorem decodeCommand_create (h : opField w = 0x01) :
    decodeCommand w = .ok (.create (sext16 (aField w)) (sext16 (bField w))) := if_pos h

theorem decodeCommand_setPixel (h : opField w = 0x02) :
    decodeCommand w = .ok (.setPixel (sext16 (aField w)) (sext16 (bField w)) (colourField w)) := by
  rw [decodeCommand, h]; rfl

theorem decodeCommand_getPixel (h : opField w = 0x03) :
    decodeCommand w = .ok (.getPixel (sext16 (aField w)) (sext16 (bField w))) := by
  rw [decodeCommand, h]; rfl

theorem decodeCommand_flipVertically (h : opField w = 0x04) : decodeCommand w = .ok .flipVertically := by
  rw [decodeCommand, h]; rfl

theorem decodeCommand_drawLine (h : opField w = 0x05) :
    decodeCommand w = .ok (.drawLine (sext16 (aField w)) (sext16 (bField w)) (sext16 (cField w)) (sext16 (dField w))
      (colourField w)) := by
  rw [decodeCommand, h]; rfl

theorem decodeCommand_encode (h : opField w = 0x06) : decodeCommand w = .ok .encode := by
  rw [decodeCommand, h]; rfl

theorem decodeCommand_write (h : opField w = 0x07) : decodeCommand w = .ok (.write (useRleField w)) := by
  rw [decodeCommand, h]; rfl

theorem decodeCommand_illegal (h : (opField w).toNat = 0 ∨ 8 ≤ (opField w).toNat) :
    decodeCommand w = .error (.illegalOpcode (opField w)) := by
  have hop (op : Byte) (h1 : 1 ≤ op.toNat) (h7 : op.toNat ≤ 7) : opField w ≠ op := by
    rintro rfl
    omega
  simp (disch := decide) only [decodeCommand, hop, if_false]

variable (w) in
/-- An opcode is one of the seven of R72 or illegal (R75). -/
theorem opcode_cases : opField w = 0x01 ∨ opField w = 0x02 ∨ opField w = 0x03 ∨ opField w = 0x04 ∨
    opField w = 0x05 ∨ opField w = 0x06 ∨ opField w = 0x07 ∨
    ((opField w).toNat = 0 ∨ 8 ≤ (opField w).toNat) := by
  simp only [← BitVec.toNat_inj, BitVec.reduceToNat]
  omega

end Opcodes

/-! ### The bits that a format reads (R73) -/

/-- A field all of whose bits a mask has is the same after masking. -/
theorem extractLsb'_and_of_allOnes {n start len : Nat} (w : BitVec n) {m : BitVec n}
    (hm : m.extractLsb' start len = BitVec.allOnes len) :
    (w &&& m).extractLsb' start len = w.extractLsb' start len := by
  rw [BitVec.extractLsb'_and, hm, BitVec.and_allOnes]

/-- Every format reads the opcode. -/
theorem opField_and_readMask (w : CommandWord) : opField (w &&& readMask w) = opField w := by
  refine extractLsb'_and_of_allOnes w ?_
  unfold readMask
  split_ifs <;> rfl

theorem aField_and (w : CommandWord) {m : CommandWord} (hm : aField m = BitVec.allOnes 16) :
    aField (w &&& m) = aField w := extractLsb'_and_of_allOnes w hm

theorem bField_and (w : CommandWord) {m : CommandWord} (hm : bField m = BitVec.allOnes 16) :
    bField (w &&& m) = bField w := extractLsb'_and_of_allOnes w hm

theorem cField_and (w : CommandWord) {m : CommandWord} (hm : cField m = BitVec.allOnes 16) :
    cField (w &&& m) = cField w := extractLsb'_and_of_allOnes w hm

theorem dField_and (w : CommandWord) {m : CommandWord} (hm : dField m = BitVec.allOnes 16) :
    dField (w &&& m) = dField w := extractLsb'_and_of_allOnes w hm

theorem colourField_and (w : CommandWord) {m : CommandWord}
    (hm : colourField m = { blue := BitVec.allOnes 8, green := BitVec.allOnes 8, red := BitVec.allOnes 8 }) :
    colourField (w &&& m) = colourField w := by
  obtain ⟨hblue, hgreen, hred⟩ := Colour.mk.inj hm
  simp only [colourField, extractLsb'_and_of_allOnes w hblue, extractLsb'_and_of_allOnes w hgreen,
    extractLsb'_and_of_allOnes w hred]

theorem useRleField_and (w : CommandWord) {m : CommandWord} (hm : useRleField m = true) :
    useRleField (w &&& m) = useRleField w := by
  rw [useRleField, BitVec.getLsbD_and]
  exact (congrArg (w.getLsbD 8 && ·) hm).trans (Bool.and_true _)

/-- R73: a word carries the same command when the bits its format does not read are cleared. -/
theorem decodeCommand_and_readMask (w : CommandWord) : decodeCommand (w &&& readMask w) = decodeCommand w := by
  have hop := opField_and_readMask w
  rcases opcode_cases w with h | h | h | h | h | h | h | h
  · rw [decodeCommand_create h, decodeCommand_create (hop.trans h), readMask, h]
    simp (disch := decide) only [if_true, aField_and, bField_and]
  · rw [decodeCommand_setPixel h, decodeCommand_setPixel (hop.trans h), readMask, h]
    simp (disch := decide) only [if_true, if_neg, aField_and, bField_and, colourField_and]
  · rw [decodeCommand_getPixel h, decodeCommand_getPixel (hop.trans h), readMask, h]
    simp (disch := decide) only [if_true, if_neg, aField_and, bField_and]
  · rw [decodeCommand_flipVertically h, decodeCommand_flipVertically (hop.trans h)]
  · rw [decodeCommand_drawLine h, decodeCommand_drawLine (hop.trans h), readMask, h]
    simp (disch := decide) only [if_true, if_neg, aField_and, bField_and, cField_and, dField_and, colourField_and]
  · rw [decodeCommand_encode h, decodeCommand_encode (hop.trans h)]
  · rw [decodeCommand_write h, decodeCommand_write (hop.trans h), readMask, h]
    simp (disch := decide) only [if_true, if_neg, useRleField_and]
  · rw [decodeCommand_illegal h, decodeCommand_illegal (by rwa [hop]), hop]

/-! ### The opcode selects the command (R73) -/

/-- The opcode of a command (R72); of a stream element, which no word carries, 0. -/
def Instr.opcode : Instr → Nat
  | .create _ _ => 1
  | .setPixel _ _ _ => 2
  | .getPixel _ _ => 3
  | .flipVertically => 4
  | .drawLine _ _ _ _ _ => 5
  | .encode => 6
  | .write _ => 7
  | .rawPacket _ | .runPacket _ | .tgaHeader _ | .tgaTrailer => 0

theorem Instr.opcode_of_isCommand {i : Instr} (h : i.isCommand = true) : 1 ≤ i.opcode ∧ i.opcode ≤ 7 := by
  cases i with
  | rawPacket _ | runPacket _ | tgaHeader _ | tgaTrailer => cases h
  | _ => simp [Instr.opcode]

/-- The value of `OP` is the lowest byte of the word (R71). -/
theorem opField_toNat (w : CommandWord) : (opField w).toNat = w.toNat % 256 := by simp [opField]

/-- A word decodes only to a command whose opcode it has. -/
theorem decodeCommand_opcode {w : CommandWord} {i : Instr} (h : decodeCommand w = .ok i) :
    i.opcode = (opField w).toNat := by
  unfold decodeCommand at h
  split_ifs at h with h1 h2 h3 h4 h5 h6 h7 <;> cases h <;> exact (congrArg BitVec.toNat ‹opField w = _›).symm

/-- A word decodes exactly when its opcode is one of the seven (R75). -/
theorem decodeCommand_ok_iff (w : CommandWord) :
    (∃ i, decodeCommand w = .ok i) ↔ 1 ≤ (opField w).toNat ∧ (opField w).toNat ≤ 7 := by
  constructor
  · rintro ⟨i, h⟩
    rw [← decodeCommand_opcode h]
    exact Instr.opcode_of_isCommand (Machine.decodeCommand_isCommand h)
  · intro hop
    rcases opcode_cases w with h | h | h | h | h | h | h | h
    · exact ⟨_, decodeCommand_create h⟩
    · exact ⟨_, decodeCommand_setPixel h⟩
    · exact ⟨_, decodeCommand_getPixel h⟩
    · exact ⟨_, decodeCommand_flipVertically h⟩
    · exact ⟨_, decodeCommand_drawLine h⟩
    · exact ⟨_, decodeCommand_encode h⟩
    · exact ⟨_, decodeCommand_write h⟩
    · omega

/-- Settles O18: the command is the same after masking; a command that a word decodes to has the word's opcode; and each of
the seven opcodes decodes to its command. -/
theorem ignoredFieldsHaveNoEffect : Obligations.IgnoredFieldsHaveNoEffect := by
  intro w
  rw [← opField_toNat]
  have opcode {i : Instr} (h : decodeCommand w = .ok i) : (opField w).toNat = i.opcode := (decodeCommand_opcode h).symm
  have field {op : Byte} (h : (opField w).toNat = op.toNat) : opField w = op := BitVec.eq_of_toNat_eq h
  exact ⟨(decodeCommand_and_readMask w).symm, decodeCommand_ok_iff w,
    ⟨fun ⟨_, _, h⟩ => opcode h, fun h => ⟨_, _, decodeCommand_create (field h)⟩⟩,
    ⟨fun ⟨_, _, _, h⟩ => opcode h, fun h => ⟨_, _, _, decodeCommand_setPixel (field h)⟩⟩,
    ⟨fun ⟨_, _, h⟩ => opcode h, fun h => ⟨_, _, decodeCommand_getPixel (field h)⟩⟩,
    ⟨fun h => opcode h, fun h => decodeCommand_flipVertically (field h)⟩,
    ⟨fun ⟨_, _, _, _, _, h⟩ => opcode h, fun h => ⟨_, _, _, _, _, decodeCommand_drawLine (field h)⟩⟩,
    ⟨fun h => opcode h, fun h => decodeCommand_encode (field h)⟩,
    ⟨fun ⟨_, h⟩ => opcode h, fun h => ⟨_, decodeCommand_write (field h)⟩⟩⟩

end Sys2Proof
end

section
/-! PROOFS. Family 30_encoding.md, the encoder and the decoder together: a well-formed instruction decodes from its encoding
(R71 to R74, R79 to R85), and what decodes is well-formed (R74, R78). -/

namespace Sys2Proof

/-! ### Count bytes (R78 to R81) -/

theorem isPacketCount_iff {n : Nat} : isPacketCount n = true ↔ 1 ≤ n ∧ n ≤ 128 := by simp [isPacketCount]

theorem rawCountByte_toNat {n : Nat} (h : isPacketCount n = true) : (rawCountByte n).toNat = n - 1 := by
  rw [isPacketCount_iff] at h
  rw [rawCountByte, BitVec.toNat_ofNat]
  omega

theorem runCountByte_toNat {n : Nat} (h : isPacketCount n = true) : (runCountByte n).toNat = n + 127 := by
  rw [isPacketCount_iff] at h
  rw [runCountByte, BitVec.toNat_ofNat]
  omega

/-- Bit 7 of a byte is set from 128 on. -/
theorem byte_bit7 (b : Byte) : b.getLsbD 7 = decide (128 ≤ b.toNat) := BitVec.msb_eq_decide b

/-- From 128 on a count byte announces a run, below it a raw packet (R78, R87). -/
theorem decodeCountByte_eq (b : Byte) :
    decodeCountByte b = if 128 ≤ b.toNat then .runPacket (b.toNat - 127) else .rawPacket (b.toNat + 1) := by
  simp only [decodeCountByte, byte_bit7, decide_eq_true_eq]

theorem decodeCountByte_rawCountByte {n : Nat} (h : isPacketCount n = true) :
    decodeCountByte (rawCountByte n) = .rawPacket n := by
  obtain ⟨h1, h128⟩ := isPacketCount_iff.1 h
  rw [decodeCountByte_eq, rawCountByte_toNat h, if_neg (by omega), Nat.sub_add_cancel h1]

theorem decodeCountByte_runCountByte {n : Nat} (h : isPacketCount n = true) :
    decodeCountByte (runCountByte n) = .runPacket n := by
  obtain ⟨h1, h128⟩ := isPacketCount_iff.1 h
  rw [decodeCountByte_eq, runCountByte_toNat h, if_pos (by omega), Nat.add_sub_cancel]

/-- Every byte is the count byte of a packet of 1 to 128 pixels (R78). -/
theorem decodeCountByte_wf (b : Byte) : (decodeCountByte b).wf = true := by
  have hb := b.isLt
  rw [decodeCountByte_eq]
  split <;> simp only [StreamElement.wf, StreamElement.toInstr, Instr.wf, isPacketCount_iff] <;> omega

/-- Settles O20: 128 is the bit that the numbers below it do not have. -/
theorem runCountByteSpellingsAgree : Obligations.RunCountByteSpellingsAgree := by
  refine ⟨fun n h1 h128 => ?_, rfl, rfl, rfl, rfl⟩
  have h := isPacketCount_iff.2 ⟨h1, h128⟩
  refine ⟨BitVec.eq_of_toNat_eq ?_, ?_, runCountByte_toNat h⟩
  · have hor : 128 + (n - 1) = 128 ||| (n - 1) := Nat.two_pow_add_eq_or_of_lt (i := 7) (by omega) 1
    rw [BitVec.toNat_or, rawCountByte_toNat h, runCountByte_toNat h, Nat.or_comm]
    exact Eq.trans (by omega) hor
  · rw [byte_bit7, rawCountByte_toNat h, decide_eq_false_iff_not]
    omega

/-! ### Stream elements (R78 to R85) -/

theorem decodeElement_countByte (b : Byte) : decodeElement [b] = .ok (decodeCountByte b) := rfl

theorem decodeElement_headerBytes (r : Bool) : decodeElement (headerBytes (Config.typeCode r) 0 0) = .ok (.tgaHeader r) := by
  cases r <;> decide

theorem decodeElement_trailerBytes : decodeElement trailerBytes = .ok .tgaTrailer := by decide

/-- What bytes decode to is well-formed: only a packet has an operand, and its count byte bounds it. -/
theorem decodeElement_wf {bs : List Byte} {e : StreamElement} (h : decodeElement bs = .ok e) : e.wf = true := by
  unfold decodeElement at h
  split_ifs at h <;> cases h
  · exact decodeCountByte_wf _
  all_goals rfl

/-! ### All rows -/

/-- Settles O17: a command carries operands of 16 bits, and a packet a count of 1 to 128. -/
theorem decodedInstructionIsWellFormed : Obligations.DecodedInstructionIsWellFormed := by
  rintro (w | bs) i h
  · exact Machine.decodeCommand_wf h
  · rw [decode] at h
    split at h <;> cases h
    exact decodeElement_wf ‹_›

theorem useRleField_assemble (op : Byte) (r : Bool) (b c d : BitVec 16) (col : Colour) :
    useRleField (assemble op (if r then 1 else 0) b c d col) = r := by
  have hbit (w : CommandWord) : useRleField w = (aField w).getLsbD 0 := by simp [useRleField, aField]
  rw [hbit, aField_assemble]
  cases r <;> rfl

/-- A stream element decodes from its bytes as the instruction that emits it. -/
theorem decode_stream {bs : List Byte} {e : StreamElement} (h : decodeElement bs = .ok e) :
    decode (.stream bs) = .ok e.toInstr := by
  rw [decode, h]

/-- Settles O16: the opcode of an assembled word selects the row, whose fields are read back; the bytes of a stream element
are recognised by their count, or as those of the header or the trailer. -/
theorem decodeOfEncodeIsTheInstruction : Obligations.DecodeOfEncodeIsTheInstruction := by
  intro i hwf
  cases i with
  | create w h =>
    simp only [Instr.wf, Bool.and_eq_true] at hwf
    refine (decodeCommand_create (opField_assemble ..)).trans ?_
    rw [aField_assemble, bField_assemble, sext16_field16 hwf.1, sext16_field16 hwf.2]
  | setPixel x y c =>
    simp only [Instr.wf, Bool.and_eq_true] at hwf
    refine (decodeCommand_setPixel (opField_assemble ..)).trans ?_
    rw [aField_assemble, bField_assemble, colourField_assemble, sext16_field16 hwf.1, sext16_field16 hwf.2]
  | getPixel x y =>
    simp only [Instr.wf, Bool.and_eq_true] at hwf
    refine (decodeCommand_getPixel (opField_assemble ..)).trans ?_
    rw [aField_assemble, bField_assemble, sext16_field16 hwf.1, sext16_field16 hwf.2]
  | flipVertically => exact decodeCommand_flipVertically (opField_assemble ..)
  | drawLine x0 y0 x1 y1 c =>
    simp only [Instr.wf, Bool.and_eq_true] at hwf
    obtain ⟨⟨⟨hx0, hy0⟩, hx1⟩, hy1⟩ := hwf
    refine (decodeCommand_drawLine (opField_assemble ..)).trans ?_
    rw [aField_assemble, bField_assemble, cField_assemble, dField_assemble, colourField_assemble, sext16_field16 hx0,
      sext16_field16 hy0, sext16_field16 hx1, sext16_field16 hy1]
  | encode => exact decodeCommand_encode (opField_assemble ..)
  | write r =>
    refine (decodeCommand_write (opField_assemble ..)).trans ?_
    rw [useRleField_assemble]
  | rawPacket n => exact decode_stream (by rw [decodeElement_countByte, decodeCountByte_rawCountByte hwf])
  | runPacket n => exact decode_stream (by rw [decodeElement_countByte, decodeCountByte_runCountByte hwf])
  | tgaHeader r => exact decode_stream (decodeElement_headerBytes r)
  | tgaTrailer => exact decode_stream decodeElement_trailerBytes

/-- Settles O19: each word is decoded by running the decoder on it. -/
theorem wordsOfTheSpecDecode : Obligations.WordsOfTheSpecDecode := by
  refine ⟨?_, ?_, ?_, ?_, ?_, ?_, ?_, ?_, ?_, ?_⟩ <;> decide

end Sys2Proof
end

section
/-! PROOFS. Family 30_encoding.md, the chunks of a picture: what a whole chunk of the chunk rule is (R129), and that the
encoder's look-ahead finds it (R121 to R125). -/

namespace Sys2Proof.Machine

/-! ### Pixels and their bytes (R50, R51) -/

theorem State.bytesAt_pixel (s : State) (i : Nat) : s.bytesAt (3 * i) 3 = colourBytes (s.pixel i) := rfl

theorem colourBytes_inj {c d : Colour} : colourBytes c = colourBytes d ↔ c = d := by
  obtain ⟨b, g, r⟩ := c
  obtain ⟨b', g', r'⟩ := d
  simp [colourBytes]

theorem State.bytesAt_add (s : State) (a m n : Nat) : s.bytesAt a (m + n) = s.bytesAt a m ++ s.bytesAt (a + m) n := by
  simp [State.bytesAt, List.range_add, Nat.add_assoc]

/-- The bytes of consecutive pixels. -/
theorem State.bytesAt_pixels (s : State) (i n : Nat) :
    s.bytesAt (3 * i) (3 * n) = ((List.range n).map fun k => s.pixel (i + k)).flatMap colourBytes := by
  induction n with
  | zero => rfl
  | succ n ih =>
    rw [Nat.mul_succ, State.bytesAt_add, ← Nat.mul_add, ih, State.bytesAt_pixel, List.range_succ]
    simp

@[simp] theorem State.pixels_length (s : State) : s.pixels.length = s.npix := by simp [State.pixels]

/-- The pixels from a place in scan order on. -/
theorem State.pixels_drop (s : State) (i : Nat) :
    s.pixels.drop i = (List.range (s.npix - i)).map fun k => s.pixel (i + k) := by
  refine List.ext_getElem (by simp) fun k _ _ => ?_
  simp [State.pixels]

theorem State.pixels_drop_getElem? {s : State} {i k : Nat} (h : i + k < s.npix) :
    (s.pixels.drop i)[k]? = some (s.pixel (i + k)) := by
  rw [State.pixels_drop, List.getElem?_map, List.getElem?_range (by omega)]
  rfl

/-- Some pixels from a place in scan order on, as long as the picture has them. -/
theorem State.pixels_drop_take {s : State} {i n : Nat} (h : i + n ≤ s.npix) :
    (s.pixels.drop i).take n = (List.range n).map fun k => s.pixel (i + k) := by
  rw [State.pixels_drop, ← List.map_take, List.take_range, Nat.min_eq_left (by omega)]

/-- The encoder's comparison of two pixels that follow each other (R123). -/
theorem State.compare_pixels {s : State} {i : Nat} (h : i + 1 < s.npix) :
    (s.memRead (3 * i) 3 == s.memRead (3 * i + 3) 3) = decide (s.pixel i = s.pixel (i + 1)) := by
  have hin : 3 * i + 3 + 3 ≤ s.memSize := by
    rw [State.memSize]
    omega
  rw [State.memRead_inside (by omega), State.memRead_inside hin, ← Nat.mul_succ, State.bytesAt_pixel, State.bytesAt_pixel]
  exact Bool.eq_iff_iff.2 (by simp [colourBytes_inj])

/-! ### The chunk rule (R129) -/

/-- A chunk under way: the neighbours among its pixels are all equal, as those of a run are, or all different. -/
structure Scanned (ps : List Colour) (raw : Bool) (len : Nat) : Prop where
  positive   : 1 ≤ len
  capped     : len ≤ min 128 ps.length
  neighbours : ∀ k, 1 ≤ k → k < len → (ps[k - 1]? = ps[k]? ↔ raw = false)

/-- A whole chunk (R129). One that stops before the cap and the end of the image stops because its last pixel and the next
differ; a raw chunk does so only where that next pixel equals the one after it. -/
structure IsChunk (ps : List Colour) (raw : Bool) (len : Nat) : Prop extends Scanned ps raw len where
  run     : raw = false → 2 ≤ len
  differs : len < min 128 ps.length → ps[len - 1]? ≠ ps[len]?
  nextRun : len < min 128 ps.length → raw = true → len + 1 < min 128 ps.length ∧ ps[len]? = ps[len + 1]?

/-- The pixels of a run all equal the first. -/
theorem IsChunk.run_getElem? {ps : List Colour} {len : Nat} (h : IsChunk ps false len) {k : Nat} (hk : k < len) :
    ps[k]? = ps[0]? := by
  induction k with
  | zero => rfl
  | succ k ih => exact ((h.neighbours (k + 1) (by omega) hk).2 rfl).symm.trans (ih (by omega))

/-- In a raw chunk each pixel differs from the one before it, and so does the pixel after the chunk. -/
theorem IsChunk.raw_getElem?_ne {ps : List Colour} {len : Nat} (h : IsChunk ps true len) {k : Nat} (h1 : 1 ≤ k)
    (hk : k ≤ len) (hm : k < min 128 ps.length) : ps[k - 1]? ≠ ps[k]? := by
  rcases Nat.lt_or_eq_of_le hk with hlt | rfl
  · simp [h.neighbours k h1 hlt]
  · exact h.differs hm

/-- How many elements a list begins with that have a property, from where the property first fails. -/
theorem length_takeWhile_eq {α : Type} {f : α → Bool} {l : List α} {n : Nat} (hn : n ≤ l.length)
    (hall : ∀ x ∈ l.take n, f x = true) (hstop : ∀ x, l[n]? = some x → f x = false) :
    (l.takeWhile f).length = n := by
  have hrest : (l.drop n).takeWhile f = [] := by
    refine List.takeWhile_eq_nil_iff.2 fun h0 => ?_
    rw [hstop _ (by simp)]
    decide
  rw [← List.take_append_drop n l, List.takeWhile_append_of_pos hall, hrest, List.append_nil, List.length_take,
    Nat.min_eq_left hn]

/-- A run is as long, up to the cap, as the pixels equal the first. -/
theorem IsChunk.chunkOf_run {p q : Colour} {rest : List Colour} {len : Nat} (h : IsChunk (p :: q :: rest) false len) :
    chunkOf (p :: q :: rest) = (false, len) := by
  have hlen := h.run rfl
  have hcap := h.capped
  have hpq : p = q := by simpa using (h.neighbours 1 (Nat.le_refl 1) hlen).2 rfl
  have hwhile := length_takeWhile_eq (f := fun c => c == p) (n := len)
    (l := (p :: q :: rest).take (min 128 (p :: q :: rest).length)) (by simpa using hcap) ?_ ?_
  · rw [chunkOf, if_pos hpq, hwhile]
  · intro x hx
    rw [List.take_take, Nat.min_eq_left hcap] at hx
    obtain ⟨k, hk, hx⟩ := List.mem_take_iff_getElem.1 hx
    have hfirst : some x = some p := hx ▸ (List.getElem?_eq_getElem _).symm.trans (h.run_getElem? (by omega))
    exact beq_iff_eq.2 (Option.some.inj hfirst)
  · intro x hx
    obtain ⟨hm, hx⟩ : len < min 128 (p :: q :: rest).length ∧ (p :: q :: rest)[len]? = some x := by
      simpa only [List.getElem?_take, Option.ite_none_right_eq_some] using hx
    have hne := h.differs hm
    rw [h.run_getElem? (by omega), hx] at hne
    exact beq_eq_false_iff_ne.2 fun hxp => hne (by rw [hxp]; rfl)

/-- A raw chunk stops one pixel short of the first two that are equal. -/
theorem IsChunk.chunkOf_raw {p q : Colour} {rest : List Colour} {len : Nat} (h : IsChunk (p :: q :: rest) true len) :
    chunkOf (p :: q :: rest) = (true, len) := by
  have hpos := h.positive
  have hne : p ≠ q := by simpa using h.raw_getElem?_ne (Nat.le_refl 1) hpos (by simp)
  rw [chunkOf, if_neg hne]
  rcases Nat.lt_or_eq_of_le h.capped with hlt | heq
  · obtain ⟨hm, hnext⟩ := h.nextRun hlt rfl
    rw [List.find?_range_eq_some.2 ⟨?_, List.mem_range.2 hm, fun k hk => ?_⟩]
    · rfl
    · simpa using ⟨hpos, hnext⟩
    · by_cases h2 : 2 ≤ k
      · simpa [h2] using h.raw_getElem?_ne (k := k) (by omega) (by omega) (by omega)
      · simp [h2]
  · rw [List.find?_range_eq_none.2 fun k hk => ?_, heq]
    by_cases h2 : 2 ≤ k
    · simpa [h2] using h.raw_getElem?_ne (k := k) (by omega) (by omega) hk
    · simp [h2]

/-- A whole chunk is the one of the chunk rule. -/
theorem IsChunk.chunkOf_eq {ps : List Colour} {raw : Bool} {len : Nat} (h : IsChunk ps raw len) :
    chunkOf ps = (raw, len) := by
  have hpos := h.positive
  have hcap := h.capped
  match ps, raw with
  | [], _ =>
    rw [List.length_nil] at hcap
    omega
  | [p], false =>
    have hrun := h.run rfl
    rw [List.length_singleton] at hcap
    omega
  | [p], true =>
    rw [List.length_singleton] at hcap
    rw [chunkOf, show len = 1 by omega]
  | p :: q :: rest, false => exact h.chunkOf_run
  | p :: q :: rest, true => exact h.chunkOf_raw

/-! ### The look-ahead finds the chunk (R121 to R125) -/

section Scanned
variable {ps : List Colour} {len : Nat}

/-- One pixel more, of which the comparison with its neighbour says what the others do, or is the first to say it (R123). -/
theorem Scanned.extend {raw raw' : Bool} (h : Scanned ps raw len) (hm : len < min 128 ps.length)
    (heq : ps[len - 1]? = ps[len]? ↔ raw' = false) (hraw : len ≠ 1 → raw' = raw) : Scanned ps raw' (len + 1) where
  positive := Nat.le_add_left 1 len
  capped := hm
  neighbours k h1 hk := by
    rcases Nat.lt_or_eq_of_le (Nat.le_of_lt_succ hk) with hlt | rfl
    · rw [hraw (by omega)]
      exact h.neighbours k h1 hlt
    · exact heq

/-- The cap or the end of the image ends a chunk (R122). -/
theorem Scanned.isChunk_of_capped {raw : Bool} (h : Scanned ps raw len) (hm : len = min 128 ps.length)
    (hfirst : len = 1 → raw = true) : IsChunk ps raw len where
  toScanned := h
  run hrun := by
    have hpos := h.positive
    have hne : len ≠ 1 := fun h1 => Bool.false_ne_true (hrun.symm.trans (hfirst h1))
    omega
  differs hlt := absurd hm hlt.ne
  nextRun hlt := absurd hm hlt.ne

/-- Two pixels that differ end a run (R125). -/
theorem Scanned.isChunk_of_differs (h : Scanned ps false len) (h2 : 2 ≤ len) (hne : ps[len - 1]? ≠ ps[len]?) :
    IsChunk ps false len where
  toScanned := h
  run _ := h2
  differs _ := hne
  nextRun _ hraw := nomatch hraw

/-- Two pixels that are equal end a raw chunk, short of the first of them (R124). -/
theorem Scanned.isChunk_of_equal (h : Scanned ps true len) (h2 : 2 ≤ len) (hm : len < min 128 ps.length)
    (heq : ps[len - 1]? = ps[len]?) : IsChunk ps true (len - 1) where
  positive := by omega
  capped := by omega
  neighbours k h1 hk := h.neighbours k h1 (by omega)
  run hrun := nomatch hrun
  differs _ := by simp [h.neighbours (len - 1) (by omega) (by omega)]
  nextRun _ _ := by
    rw [Nat.sub_add_cancel (by omega)]
    exact ⟨hm, heq⟩

end Scanned

/-- The encoder's comparison at a chunk's last pixel compares it with the pixel after the chunk (R123). -/
theorem EncoderRegs.Running.comparison {s : State} {e : EncoderRegs} (hr : e.Running s.npix)
    (hnext : e.curpix + e.runLength < s.npix) :
    (s.memRead e.curbyte 3 == s.memRead (e.curbyte + 3) 3) = true ↔
      (s.pixels.drop e.curpix)[e.runLength - 1]? = (s.pixels.drop e.curpix)[e.runLength]? := by
  have hpos := hr.positive
  rw [hr.leftPixel, State.compare_pixels (by omega), State.pixels_drop_getElem? (by omega),
    State.pixels_drop_getElem? hnext, Option.some.injEq, decide_eq_true_iff, Nat.add_sub_assoc hpos,
    Nat.add_assoc, Nat.sub_add_cancel hpos]

@[simp] theorem EncoderRegs.compare_runLength (e : EncoderRegs) (equal : Bool) :
    (e.compare equal).runLength = e.runLength := rfl
@[simp] theorem EncoderRegs.compare_succEq (e : EncoderRegs) (equal : Bool) : (e.compare equal).succEq = equal := rfl

theorem EncoderRegs.compare_raw (e : EncoderRegs) (equal : Bool) :
    (e.compare equal).raw = if e.runLength = 1 then !equal else e.raw := rfl

section Turn
variable {s : State} {e : EncoderRegs} (n : Nat) (hextend : e.mayExtend = true)
include hextend

/-- A turn of the look-ahead that meets two equal pixels in a raw chunk (R124). -/
theorem State.lookAhead_cutBack (heq : (s.memRead e.curbyte 3 == s.memRead (e.curbyte + 3) 3) = true)
    (hraw : (e.compare true).raw = true) :
    s.lookAhead (n + 1) e = { e.compare true with runLength := e.runLength - 1 } := by
  simp only [State.lookAhead, hextend, heq, hraw, EncoderRegs.compare_succEq, EncoderRegs.compare_runLength, if_true,
    Bool.and_self]

/-- A turn that meets two different pixels in a run (R125). -/
theorem State.lookAhead_stop (heq : (s.memRead e.curbyte 3 == s.memRead (e.curbyte + 3) 3) = false)
    (hraw : (e.compare false).raw = false) : s.lookAhead (n + 1) e = e.compare false := by
  simp [State.lookAhead, hextend, heq, hraw]

/-- A turn that makes the chunk longer by one pixel (R121). -/
theorem State.lookAhead_extend {equal : Bool}
    (heq : (s.memRead e.curbyte 3 == s.memRead (e.curbyte + 3) 3) = equal) (hraw : (e.compare equal).raw = !equal) :
    s.lookAhead (n + 1) e = s.lookAhead n { e.compare equal with runLength := (e.compare equal).runLength + 1 } := by
  simp only [State.lookAhead, hextend, heq, hraw, EncoderRegs.compare_succEq, if_true, Bool.not_and_self,
    Bool.not_not, Bool.and_not_self, Bool.false_eq_true, if_false]

end Turn

/-- A look-ahead from a chunk under way ends with a whole chunk. -/
theorem State.lookAhead_isChunk (s : State) (n : Nat) {e : EncoderRegs} (hr : e.Running s.npix)
    (hs : Scanned (s.pixels.drop e.curpix) e.raw e.runLength) (hfirst : e.runLength = 1 → e.raw = true)
    (hn : 128 ≤ n + e.runLength) :
    IsChunk (s.pixels.drop e.curpix) (s.lookAhead n e).raw (s.lookAhead n e).runLength := by
  have hlen : (s.pixels.drop e.curpix).length = s.npix - e.curpix := by simp
  have hcap := hs.capped
  induction n generalizing e with
  | zero => exact hs.isChunk_of_capped (by omega) hfirst
  | succ n ih =>
    by_cases hextend : e.mayExtend = true
    · obtain ⟨hnext, h128⟩ := e.mayExtend_iff.1 hextend
      rw [hr.npixels] at hnext
      have hpos := hs.positive
      have hm : e.runLength < min 128 (s.pixels.drop e.curpix).length := by omega
      have hcomparison := hr.comparison hnext
      obtain ⟨equal, heq⟩ : ∃ b, (s.memRead e.curbyte 3 == s.memRead (e.curbyte + 3) 3) = b := ⟨_, rfl⟩
      rw [heq] at hcomparison
      by_cases hgo : (e.compare equal).raw = !equal
      · have hs' := hs.extend hm (raw' := (e.compare equal).raw) (by rw [← hcomparison, hgo, Bool.not_eq_false'])
          fun hne => (e.compare_raw equal).trans (if_neg hne)
        rw [State.lookAhead_extend n hextend heq hgo]
        exact ih (hr.extend hextend equal) hs' (by simp; omega) (by simp; omega) hlen hs'.capped
      · have h1 : e.runLength ≠ 1 := fun h1 => hgo ((e.compare_raw equal).trans (if_pos h1))
        have hraw : (e.compare equal).raw = e.raw := (e.compare_raw equal).trans (if_neg h1)
        cases equal with
        | false =>
          have hrun : e.raw = false := hraw.symm.trans (by simpa using hgo)
          rw [State.lookAhead_stop n hextend heq (hraw.trans hrun), hraw, hrun]
          exact (hrun ▸ hs).isChunk_of_differs (by omega) (by simpa using hcomparison)
        | true =>
          have hrun : e.raw = true := hraw.symm.trans (by simpa using hgo)
          rw [State.lookAhead_cutBack n hextend heq (hraw.trans hrun), hraw, hrun]
          exact (hrun ▸ hs).isChunk_of_equal (by omega) hm (hcomparison.1 rfl)
    · rw [State.lookAhead, if_neg hextend]
      rw [e.mayExtend_iff, hr.npixels] at hextend
      exact hs.isChunk_of_capped (by omega) hfirst

end Sys2Proof.Machine
end

section
/-! PROOFS. Family 30_encoding.md, the streams (R79, R80, R82, R85, R86, R150, R151): the bytes that each element and each
stream command emits, whatever the sink makes of them. -/

namespace Sys2Proof.Machine

/-! ### The packet of a chunk (R79, R80, R129) -/

/-- The packet of the first pixels of a picture's rest, raw or a run. -/
def chunkPacket (ps : List Colour) (raw : Bool) (len : Nat) : Packet :=
  { isRun := !raw, count := len, triples := ps.take (if raw then len else 1) }

/-- The packets of the chunk rule begin with that of the first chunk. -/
theorem rlePackets_succ {ps : List Colour} (hps : ps ≠ []) {raw : Bool} {len : Nat} (h : chunkOf ps = (raw, len))
    (n : Nat) :
    rlePackets (n + 1) ps = chunkPacket ps raw len :: rlePackets n (ps.drop len) := by
  obtain ⟨p, ps, rfl⟩ := List.exists_cons_of_ne_nil hps
  rw [rlePackets]
  simp only [h, chunkPacket]
  cases raw <;> rfl

/-- The bytes that a chunk inside the buffer emits are those of its packet. -/
theorem State.chunkBytes_eq {s : State} {e : EncoderRegs} (hstart : e.chunkstart = 3 * e.curpix) (hpos : 1 ≤ e.runLength)
    (hin : e.curpix + e.runLength ≤ s.npix) :
    s.chunkBytes e = packetBytes (chunkPacket (s.pixels.drop e.curpix) e.raw e.runLength) := by
  have hread {n : Nat} (hn : n ≤ e.runLength) :
      s.memRead (3 * e.curpix) (3 * n) = ((s.pixels.drop e.curpix).take n).flatMap colourBytes := by
    rw [State.memRead_inside (by rw [State.memSize]; omega), State.bytesAt_pixels, State.pixels_drop_take (by omega)]
  rw [State.chunkBytes, hstart, hread (Nat.le_refl _), hread hpos]
  cases e.raw <;> rfl

/-! ### The packet loop (R121, R129) -/

/-- The look-ahead from a scan pointer inside the picture finds the chunk of the chunk rule. -/
theorem State.lookAhead_startChunk {s : State} {e : EncoderRegs} (hn : e.npixels = s.npix) (hc : e.curpix < s.npix) :
    ∃ c, s.lookAhead Config.maxChunk e.startChunk = c ∧ c.npixels = s.npix ∧ c.curpix = e.curpix ∧
      c.chunkstart = 3 * c.curpix ∧ 1 ≤ c.runLength ∧ c.curpix + c.runLength ≤ s.npix ∧
      chunkOf (s.pixels.drop c.curpix) = (c.raw, c.runLength) := by
  have hrunning := EncoderRegs.running_startChunk hn (hn.symm ▸ hc)
  have hscanned : Scanned (s.pixels.drop e.curpix) true 1 := ⟨Nat.le_refl 1, by simp; omega, fun _ h1 hk => by omega⟩
  have hchunk := s.lookAhead_isChunk Config.maxChunk hrunning hscanned (fun _ => rfl) (Nat.le_add_right 128 1)
  obtain ⟨c, hlook, hnpixels, hcurpix, hchunkstart, hpos, -, hin, -⟩ := s.lookAhead_spec Config.maxChunk _ hrunning
  rw [hlook] at hchunk
  have hcurpix' : c.curpix = e.curpix := hcurpix
  refine ⟨c, hlook, hnpixels.trans hn, hcurpix, ?_, hpos, hin, ?_⟩
  · rw [hcurpix']; exact hchunkstart
  · rw [hcurpix']; exact hchunk.chunkOf_eq

/-- The chunk rule's first chunk of a picture's rest has at least one pixel and lies inside the picture (R126, R127). -/
theorem State.chunkOf_inside {s : State} {i : Nat} (h : i < s.npix) :
    ∃ raw len, chunkOf (s.pixels.drop i) = (raw, len) ∧ 1 ≤ len ∧ i + len ≤ s.npix := by
  obtain ⟨c, -, -, rfl, -, hpos, hin, hchunk⟩ :=
    State.lookAhead_startChunk (s := s) (e := { s.enc with npixels := s.npix, curpix := i }) rfl h
  exact ⟨c.raw, c.runLength, hchunk, hpos, hin⟩

/-- One chunk emits the packet of the chunk rule's first chunk and moves the scan pointer past it. -/
theorem State.encodeChunk_eq {s : State} (hn : s.enc.npixels = s.npix) (hc : s.enc.curpix < s.npix) :
    ∃ c raw len, c.npixels = s.npix ∧ c.curpix = s.enc.curpix + len ∧ c.curpix ≤ s.npix ∧
      chunkOf (s.pixels.drop s.enc.curpix) = (raw, len) ∧
      s.encodeChunk = State.emit { s with enc := c } (packetBytes (chunkPacket (s.pixels.drop s.enc.curpix) raw len)) := by
  obtain ⟨c, hlook, hnpixels, hcurpix, hstart, hpos, hin, hchunk⟩ := State.lookAhead_startChunk hn hc
  refine ⟨c.pastChunk, c.raw, c.runLength, hnpixels, congrArg (· + c.runLength) hcurpix, hin, hcurpix ▸ hchunk, ?_⟩
  rw [State.encodeChunk, hlook, State.emitChunk_eq hin, State.chunkBytes_eq hstart hpos hin, hcurpix]

/-- The packet loop emits the packets of the chunk rule, from the scan pointer on. -/
theorem State.encodeChunks_emits (n : Nat) {s : State} (hn : s.enc.npixels = s.npix) (hc : s.enc.curpix ≤ s.npix) :
    (State.encodeChunks n s).Emits s ((rlePackets n (s.pixels.drop s.enc.curpix)).flatMap packetBytes) := by
  induction n generalizing s with
  | zero => exact s.emit_emits []
  | succ n ih =>
    rw [State.encodeChunks, hn]
    by_cases hlt : s.enc.curpix < s.npix
    · obtain ⟨c, raw, len, hnpixels, hcurpix, hin, hchunk, hemit⟩ := State.encodeChunk_eq hn hlt
      rw [if_pos hlt, hemit, rlePackets_succ (by simpa using hlt) hchunk, List.flatMap_cons, List.drop_drop, ← hcurpix]
      generalize packetBytes (chunkPacket (s.pixels.drop s.enc.curpix) raw len) = bs
      have hrest := ih (s := { s with enc := c, stream := s.stream ++ bs }) hnpixels hin
      exact State.emit_andThen_emits (s := { s with enc := c }) hrest
    · rw [if_neg hlt, List.drop_eq_nil_of_le (by simpa using hlt)]
      exact s.emit_emits []

/-- R129: `EmitRLE` emits the packets of the chunk rule. -/
theorem State.emitRLE_emits (s : State) : s.emitRLE.Emits s (rleOf s.pixels) := by
  have h := State.encodeChunks_emits s.npix (s := { s with enc := { s.enc with npixels := s.npix, curpix := 0 } }) rfl
    (Nat.zero_le _)
  rw [rleOf, State.pixels_length]
  exact h

/-! ### The streams (R86, R151) -/

/-- The payload of a file (R150, R151). -/
def State.payload (s : State) (useRLE : Bool) : List Byte :=
  if useRLE then rleOf s.pixels else s.bytesAt 0 s.memSize

/-- A file: header, payload, trailer (R86). -/
def State.file (s : State) (useRLE : Bool) : List Byte :=
  headerBytes (Config.typeCode useRLE) s.width s.height ++ s.payload useRLE ++ trailerBytes

theorem State.emitPayload_emits (s : State) (r : Bool) : (s.emitPayload r).Emits s (s.payload r) := by
  cases r with
  | true => exact s.emitRLE_emits
  | false =>
    have hread : s.memRead 0 s.memSize = s.payload false := State.memRead_inside (Nat.zero_add _).le
    rw [← hread]
    exact s.emit_emits _

theorem State.emitFile_emits (s : State) (r : Bool) :
    (((s.emitHeader r).andThen fun t => t.emitPayload r).andThen State.emitTrailer).Emits s (s.file r) :=
  (State.emit_andThen_emits (State.emitPayload_emits { s with stream := s.stream ++ _ } r)).andThen_emit trailerBytes

/-- A sink that refuses nothing takes all of what a stream command emits, which so ends with `OK`. -/
theorem Flow.Emits.finish_accepting {f : Flow} {s : State} {bs : List Byte} (h : f.Emits s bs)
    (hsink : s.sinkFailAt = none) :
    ∃ e, f.finish = .next (State.complete { s with enc := e, stream := s.stream ++ bs } .ok 0) := by
  obtain ⟨e, rfl⟩ := h
  exact ⟨e, congrArg Flow.finish (State.emit_accepting (s := { s with enc := e }) hsink bs)⟩

/-- Such a command has ended as one that wrote nothing to `STATUS` before its epilogue. -/
theorem State.complete_ended_of_status {s u : State} (h : u.status = s.status) (code : Code) (data : BitVec 24) :
    Ended s (u.complete code data) code data := by
  refine ⟨u.complete_last code data, (u.complete_fatal code data).trans ?_, rfl, rfl, rfl⟩
  rw [State.fatal, h, State.fatal]

/-- Settles O44: each command's emission is that of its stream, which the sink takes from the first byte on. -/
theorem streamsHaveTheirThreeShapes : Obligations.StreamsHaveTheirThreeShapes := by
  intro s ha hsink
  obtain ⟨e, hencode⟩ := s.openStream.emitRLE_emits.finish_accepting hsink
  obtain ⟨r, hraw⟩ := (s.openStream.emitFile_emits false).finish_accepting hsink
  obtain ⟨w, hrle⟩ := (s.openStream.emitFile_emits true).finish_accepting hsink
  have hended {u : State} (h : u.status = s.status) := State.complete_ended_of_status h .ok 0
  exact ⟨_, _, _, (exec_encode ha).trans hencode, (exec_write ha false).trans hraw, (exec_write ha true).trans hrle,
    hended rfl, hended rfl, hended rfl, rfl, rfl, rfl⟩

/-! ### The elements (R79, R80, R82, R85, log 8) -/

/-- The encoder's registers for a packet of a kind and count, issued at the scan pointer (log 8). -/
def EncoderRegs.packet (e : EncoderRegs) (raw : Bool) (count : Nat) : EncoderRegs :=
  { e.startChunk with runLength := count, raw := raw }

/-- A packet element inside the buffer emits its packet, the scan pointer having moved past it. -/
theorem exec_packetElement {s : State} (ha : s.alloc = true) {raw : Bool} {len : Nat} (hpos : 1 ≤ len)
    (hin : s.enc.curpix + len ≤ s.npix) :
    exec (packetElement (chunkPacket (s.pixels.drop s.enc.curpix) raw len)).toInstr s =
      (State.emit { s with enc := (s.enc.packet raw len).pastChunk }
        (packetBytes (chunkPacket (s.pixels.drop s.enc.curpix) raw len))).proceed := by
  have hbytes := State.chunkBytes_eq (s := s) (e := s.enc.packet raw len) rfl hpos hin
  have hemit := congrArg Flow.proceed ((State.emitChunk_eq hin).trans (congrArg _ hbytes))
  cases raw with
  | true => exact ((exec_rawPacket ha len).trans (by rw [State.drawPastEnd_inside hin]; rfl)).trans hemit
  | false => exact ((exec_runPacket ha len).trans (by rw [State.drawPastEnd_inside hin]; rfl)).trans hemit

/-- With a sink that refuses nothing, the element goes on with its bytes on the stream. -/
theorem State.emit_proceed_accepting {s : State} (h : s.sinkFailAt = none) (bs : List Byte) :
    (s.emit bs).proceed = .next { s with stream := s.stream ++ bs } := congrArg Flow.proceed (State.emit_accepting h bs)

/-- Settles O47: the element emits the packet of its pixels, which the sink takes. -/
theorem packetElementsEmitTheirBytes : Obligations.PacketElementsEmitTheirBytes := by
  intro s n ha hsink h1 _ hin
  have helement (raw : Bool) := (exec_packetElement ha (raw := raw) h1 hin).trans
    (State.emit_proceed_accepting (by exact hsink) _)
  have htriples {k : Nat} (hk : k ≤ n) := State.pixels_drop_take (s := s) (i := s.enc.curpix) (n := k) (by omega)
  refine ⟨⟨(s.enc.packet true n).pastChunk, rfl, ?_⟩, ⟨(s.enc.packet false n).pastChunk, rfl, ?_⟩⟩
  · rw [← htriples (Nat.le_refl n)]
    exact helement true
  · have hone : colourBytes (s.pixel s.enc.curpix) = ((s.pixels.drop s.enc.curpix).take 1).flatMap colourBytes := by
      rw [htriples h1]
      rfl
    rw [hone]
    exact helement false

/-- Settles O48: the sink takes the bytes of the header and of the trailer. -/
theorem headerAndTrailerElementsEmitTheirBytes : Obligations.HeaderAndTrailerElementsEmitTheirBytes := by
  intro s r ha hsink
  refine ⟨?_, (exec_tgaTrailer ha).trans (State.emit_proceed_accepting hsink _)⟩
  rw [exec_tgaHeader ha, State.emitHeader, State.emit_proceed_accepting hsink]
  cases r <;> rfl

/-- With a sink that refuses nothing a packet emits its count byte, then what `MemRead` answers for the pixels that it lists,
inside the buffer or past its end; the scan pointer moves past its pixels where 30 bits hold the sum (log 19). -/
theorem State.emitPacket_accepting {s : State} (hsink : s.sinkFailAt = none) (raw : Bool) (n : Nat) :
    ∃ (e : EncoderRegs) (k : Nat), (State.emitChunk { s.drawPastEnd n with enc := s.enc.packet raw n }).proceed =
      .next { s with
        enc := e
        freeCount := k
        stream := s.stream ++ (if raw then rawCountByte n else runCountByte n) ::
          State.memRead { s with freeCount := k } (3 * s.enc.curpix) (3 * (if raw then n else 1)) } ∧
      (s.enc.curpix + n < 2 ^ 30 → e.curpix = s.enc.curpix + n) := by
  obtain ⟨k, hk⟩ := s.drawPastEnd_eq n
  rw [hk, State.emitChunk_accepting (by exact hsink)]
  have hpointer (h : s.enc.curpix + n < 2 ^ 30) :
      State.pointerPast { s with enc := s.enc.packet raw n, freeCount := k } n = s.enc.curpix + n := if_pos (.inr h)
  refine ⟨{ s.enc.packet raw n with
    curpix := State.pointerPast { s with enc := s.enc.packet raw n, freeCount := k } n }, k, ?_, hpointer⟩
  cases raw <;> rfl

/-- Settles O50: the element lists as many bytes as it always does, and each that exists is the one that is stored. -/
theorem packetPastTheBufferCompletes : Obligations.PacketPastTheBufferCompletes := by
  intro s n ha hsink _ _ hpast
  obtain ⟨e, k, hraw, hcurpix⟩ := State.emitPacket_accepting hsink true n
  obtain ⟨e', k', hrun, hcurpix'⟩ := State.emitPacket_accepting hsink false n
  refine ⟨⟨e, _, k, (exec_rawPacket ha n).trans hraw, State.memRead_length _ _ _, fun j hj => ?_, hcurpix⟩,
    ⟨e', _, k', (exec_runPacket ha n).trans hrun, State.memRead_length _ _ _, fun j hj hin => ?_, hcurpix'⟩⟩
  · have hj' : j < 3 * n := by rw [State.memSize] at hj; omega
    exact State.memRead_getElem? (s := { s with freeCount := k }) hj' hj
  · exact State.memRead_getElem? (s := { s with freeCount := k' }) hj hin

end Sys2Proof.Machine
end

section
/-! PROOFS. Family 30_encoding.md, a busy core that issues stream elements one by one (R86, R150, log 8): it emits their
bytes one after the other, and ends its command as one emission of them all does. -/

namespace Sys2Proof.Machine

/-- A step, then the rest of the run. -/
theorem run_next {s t : State} (h : step s = .next t) (n : Nat) : core.run (n + 1) s = core.run n t := by
  have hcore : core.step s = .next t := h
  simp only [Host.Core.run, hcore]

/-- A core to which nothing is presented stays idle however often it steps (R241). -/
theorem run_idle (n : Nat) {s : State} (hp : s.phase = .idle) (hi : s.inputs = []) : core.run n s = .next s := by
  induction n with
  | zero => rfl
  | succ n ih => exact (run_next (step_nothingPresented hp hi) n).trans ih

/-- What a core still has to issue is dropped by the epilogue and has no effect on an emission before it (log 8). -/
theorem State.emit_finish_todo (s : State) (es : List StreamElement) (bs : List Byte) :
    (State.emit { s with todo := es } bs).finish = (s.emit bs).finish := by
  induction bs generalizing s with
  | nil => rfl
  | cons b bs ih =>
    simp only [State.emit]
    split
    · rfl
    · exact ih { s with stream := s.stream ++ [b] }

/-- A core that has these elements to issue emits these bytes and ends its command, one step an element and one for the end;
nothing is said of what the encoder's registers then hold. -/
def Issues (s : State) (es : List StreamElement) (bs : List Byte) : Prop :=
  ∃ e, core.run (es.length + 1) { s with todo := es } = (State.emit { s with enc := e } bs).finish

section Issues
variable {s : State} (hp : s.phase = .busy)
include hp

theorem issues_nil : Issues s [] [] := by
  have hend : step { s with todo := [] } = .next (State.complete { s with todo := [] } .ok 0) :=
    step_nothingToIssue hp rfl
  exact ⟨s.enc, run_next hend 0⟩

/-- An element that emits its bytes, then the rest. A refused byte ends the command, and the core stays idle (R135). -/
theorem issues_cons (hi : s.inputs = []) {el : StreamElement} {es : List StreamElement} {bs bs' : List Byte}
    {e : EncoderRegs}
    (hexec : exec el.toInstr { s with todo := es } = (State.emit { s with enc := e, todo := es } bs).proceed)
    (hrest : Issues { s with enc := e, stream := s.stream ++ bs } es bs') : Issues s (el :: es) (bs ++ bs') := by
  have hstep : step { s with todo := el :: es } = (State.emit { s with enc := e, todo := es } bs).proceed :=
    (step_element (s := { s with todo := el :: es }) hp rfl).trans hexec
  have hemits (e' : EncoderRegs) : (State.emit { s with enc := e' } (bs ++ bs')).finish =
      ((State.emit { s with enc := e', todo := es } bs).andThen fun t => t.emit bs').finish := by
    rw [← State.emit_append]
    exact (State.emit_finish_todo { s with enc := e' } es _).symm
  cases hf : State.emit { s with enc := e, todo := es } bs with
  | refused t =>
    rw [hf] at hstep
    have hi' : t.inputs = [] := by
      have hall := State.emit_all { s with enc := e, todo := es } bs
      rw [hf] at hall
      obtain ⟨st, rfl⟩ := hall
      exact hi
    refine ⟨e, (run_next hstep _).trans ?_⟩
    rw [hemits, hf]
    exact run_idle _ rfl hi'
  | go t =>
    rw [hf] at hstep
    cases State.emit_go hf
    obtain ⟨e', hrun⟩ := hrest
    refine ⟨e', ((run_next hstep _).trans hrun).trans ?_⟩
    rw [hemits, State.emit_go_enc hf e']
    exact (State.emit_finish_todo _ es bs').symm

/-- A packet at the scan pointer, then the rest from behind it. -/
theorem issues_packet (ha : s.alloc = true) (hi : s.inputs = []) {raw : Bool} {len : Nat} (hpos : 1 ≤ len)
    (hin : s.enc.curpix + len ≤ s.npix) {es : List StreamElement} {bs : List Byte}
    (hrest : Issues { s with
      enc := (s.enc.packet raw len).pastChunk
      stream := s.stream ++ packetBytes (chunkPacket (s.pixels.drop s.enc.curpix) raw len) } es bs) :
    Issues s (packetElement (chunkPacket (s.pixels.drop s.enc.curpix) raw len) :: es)
      (packetBytes (chunkPacket (s.pixels.drop s.enc.curpix) raw len) ++ bs) :=
  issues_cons hp hi (exec_packetElement (s := { s with todo := es }) ha hpos hin) hrest

theorem issues_trailer (ha : s.alloc = true) (hi : s.inputs = []) : Issues s [.tgaTrailer] trailerBytes := by
  have htrailer : Issues s [.tgaTrailer] (trailerBytes ++ []) :=
    issues_cons hp hi (e := s.enc) (exec_tgaTrailer (s := { s with todo := [] }) ha) (issues_nil hp)
  rwa [List.append_nil] at htrailer

end Issues

/-- The packets of the chunk rule from the scan pointer on, then the trailer (R85, R86, R129). -/
theorem issues_packets (n : Nat) {s : State} (ha : s.alloc = true) (hp : s.phase = .busy) (hi : s.inputs = [])
    (hc : s.enc.curpix ≤ s.npix) :
    Issues s ((rlePackets n (s.pixels.drop s.enc.curpix)).map packetElement ++ [.tgaTrailer])
      ((rlePackets n (s.pixels.drop s.enc.curpix)).flatMap packetBytes ++ trailerBytes) := by
  induction n generalizing s with
  | zero => exact issues_trailer hp ha hi
  | succ n ih =>
    by_cases hlt : s.enc.curpix < s.npix
    · obtain ⟨raw, len, hchunk, hpos, hin⟩ := State.chunkOf_inside hlt
      rw [rlePackets_succ (by simpa using hlt) hchunk, List.map_cons, List.flatMap_cons, List.cons_append,
        List.append_assoc, List.drop_drop]
      exact issues_packet hp ha hi hpos hin
        (ih (s := { s with enc := (s.enc.packet raw len).pastChunk, stream := s.stream ++ _ }) ha hp hi hin)
    · rw [List.drop_eq_nil_of_le (by simpa using hlt)]
      exact issues_trailer hp ha hi

/-- A busy core at the start of its stream, with the scan pointer at the first pixel. -/
def State.startStream (s : State) : State :=
  { s with phase := .busy, stream := [], enc := { s.enc with curpix := 0 } }

/-- The plan of `write(1)` emits its file (R86). -/
theorem issues_writeRlePlan {s : State} (ha : s.alloc = true) (hi : s.inputs = []) :
    Issues s.startStream (writeRlePlan s) (s.file true) := by
  have hpackets := issues_packets s.npix
    (s := { s.startStream with stream := headerBytes (Config.typeCode true) s.width s.height }) ha rfl hi (Nat.zero_le _)
  have hheader (es : List StreamElement) := exec_tgaHeader (s := { s.startStream with todo := es }) ha true
  rw [State.file, List.append_assoc, State.payload, if_pos rfl, rleOf, State.pixels_length]
  exact issues_cons (s := s.startStream) rfl hi (hheader _) hpackets

/-- Settles O51: the elements of the plan emit the bytes of the file, and the sink makes of them what it makes of those of
`write(1)`. -/
theorem issuingTheElementsIsWrite : Obligations.IssuingTheElementsIsWrite := by
  intro s ha hi
  obtain ⟨e, hrun⟩ := issues_writeRlePlan ha hi
  have hissued : (State.emit { s.startStream with enc := e } (s.file true)).Emits s.startStream (s.file true) := ⟨e, rfl⟩
  obtain ⟨c, c', st, code, hwrite, hissue⟩ := (s.openStream.emitFile_emits true).finish hissued rfl rfl
  exact ⟨_, _, (exec_write ha true).trans hwrite, hrun.trans hissue, ⟨rfl, rfl, rfl, rfl, rfl, rfl, rfl⟩⟩

end Sys2Proof.Machine
end

section
/-! PROOFS. Family 40_pixelbuffer.md, `create`, `setPixel` and `getPixel` (R100 to R104): what each leaves when it answers
`OK`. -/

namespace Sys2Proof.Machine

/-! ### The epilogue with `OK` (R208) -/

/-- `OK` is 0 and not fatal: `ALLOC` and `FATAL` are kept. -/
theorem State.statusAfter_ok (s : State) : s.statusAfter .ok = statusOf s.alloc 0 s.fatal := by
  have hfatal : (s.fatal || Code.ok.isFatal) = s.fatal := Bool.or_false _
  rw [State.statusAfter, hfatal]
  rfl

/-! ### `create` (R100, R101) -/

/-- A dimension that is not negative is the number its register holds (R21). -/
theorem field16_toNat {n : Int} (h0 : 0 ≤ n) (h : n ≤ 32767) : ((field16 n).toNat : Int) = n := by
  rw [field16, BitVec.toNat_ofInt]
  omega

/-- Every byte of a memory that lists none reads 0 (R101). -/
theorem State.byteAt_of_nil {s : State} (h : s.mem = []) (a : Nat) : s.byteAt a = 0 := by
  rw [State.byteAt, h]
  rfl

theorem State.bytesAt_of_nil {s : State} (h : s.mem = []) (a n : Nat) : s.bytesAt a n = List.replicate n 0 :=
  List.eq_replicate_iff.2 ⟨s.bytesAt_length a n, by simp [State.bytesAt, State.byteAt_of_nil h]⟩

theorem State.pixel_of_nil {s : State} (h : s.mem = []) (i : Nat) : s.pixel i = { blue := 0, green := 0, red := 0 } := by
  simp only [State.pixel_eq, State.byteAt_of_nil h]

/-- Settles O21: the new buffer has the dimensions in its registers and lists no byte. -/
theorem createZeroFillsTheBuffer : Obligations.CreateZeroFillsTheBuffer := by
  intro s w h hw hw' hh hh'
  have width : ((field16 w).toNat : Int) = w := field16_toNat (by omega) hw'
  have height : ((field16 h).toNat : Int) = h := field16_toNat (by omega) hh'
  refine ⟨_, exec_create_valid (by omega) s, ?_, width, height, ?_, fun a n hn => ?_, fun c hc => ?_⟩
  · rw [State.complete, State.statusAfter_ok, State.allocate_alloc, State.allocate_fatal]
    rfl
  · simp only [State.memSize, State.npix, State.complete_width, State.complete_height, State.allocate_width,
      State.allocate_height]
    push_cast
    rw [width, height]
  · rw [State.memRead_inside hn, State.bytesAt_of_nil rfl]
  · obtain ⟨i, -, rfl⟩ := List.mem_map.1 hc
    exact State.pixel_of_nil rfl i

/-! ### `setPixel` (R102) -/

/-- A pixel put in bounds changes the three bytes of that pixel only (R53, R102). -/
theorem State.byteAt_putPixel_ne {s : State} {x y : Nat} (c : Colour) {a : Nat}
    (h : a < (x + y * s.width.toNat) * 3 ∨ (x + y * s.width.toNat) * 3 + 3 ≤ a) :
    (s.putPixel (x, y) c).byteAt a = s.byteAt a := by
  simp only [State.putPixel, State.byteAt, State.pixelOffset_nat]
  split
  · rfl
  · rw [Memory.read_writeBytes, if_neg (by simp only [colourBytes, List.length_cons, List.length_nil]; omega)]

/-- The three bytes of a pixel put in bounds are those of its colour (R50, R102). -/
theorem State.memRead_putPixel {s : State} {x y : Nat} (hx : x < s.width.toNat) (hy : y < s.height.toNat) (c : Colour) :
    (s.putPixel (x, y) c).memRead ((x + y * s.width.toNat) * 3) 3 = colourBytes c := by
  have hpixel := State.pixel_putPixel hx hy hx (py := y) c
  rw [if_pos ⟨rfl, rfl⟩] at hpixel
  have hin : (x + y * s.width.toNat) * 3 + 3 ≤ (s.putPixel (x, y) c).memSize := State.pixel_inside hx hy
  rw [State.memRead_inside hin, Nat.mul_comm _ 3, State.bytesAt_pixel, hpixel]

/-- Settles O23: in bounds the body puts the pixel, and the epilogue leaves the memory. -/
theorem setPixelStoresThreeBytes : Obligations.SetPixelStoresThreeBytes := by
  intro s x y c ha hx hy
  have hin : s.outOfBounds x y = false := State.outOfBounds_eq_false.2 (by omega)
  have hstatus : (s.putPixel (x, y) c).status = s.status := rfl
  have hkeeps : KeepsDimensions s (s.putPixel (x, y) c) := ⟨rfl, rfl, rfl⟩
  exact ⟨_, exec_setPixel_inside ha c hin, State.complete_ended_of_status hstatus .ok 0, hkeeps.complete .ok 0, ⟨rfl, rfl⟩,
    rfl, rfl, rfl, rfl, State.pixel_inside hx hy, State.memRead_putPixel hx hy c, fun _ => State.byteAt_putPixel_ne c⟩

/-! ### `getPixel` (R104) -/

/-- Settles O25: the answer is `col24` of the pixel, whose channels are its three bytes. -/
theorem getPixelAnswersTheStoredColour : Obligations.GetPixelAnswersTheStoredColour := by
  intro s x y ha hx hy
  rw [exec_getPixel_pixel ha hx hy, State.complete, State.statusAfter_ok, ha, State.pixel_eq, Nat.mul_comm 3]
  rfl

end Sys2Proof.Machine
end

section
/-! PROOFS. Family 40_pixelbuffer.md, `flipVertically` (R105 to R107): the loop turns the rows over, byte for byte, and two
flips restore the memory. -/

namespace Sys2Proof.Machine

/-! ### `MEM` by rows (R34, R35) -/

/-- The place of a byte of row `y` is in row `j` exactly when the rows are the same. -/
theorem rowByte_mem_row {rb y k : Nat} (hk : k < rb) (j : Nat) :
    j * rb ≤ y * rb + k ∧ y * rb + k < (j + 1) * rb ↔ y = j := by
  constructor
  · rintro ⟨h1, h2⟩
    have hjy : j < y + 1 := Nat.lt_of_mul_lt_mul_right (a := rb) (by rw [Nat.add_mul]; omega)
    have hyj : y < j + 1 := Nat.lt_of_mul_lt_mul_right (a := rb) (by omega)
    omega
  · rintro rfl
    rw [Nat.add_mul]
    omega

/-- An address is that of a byte of some row, or lies past the last row. -/
theorem State.address_cases (s : State) (a : Nat) :
    (∃ y k, y < s.height.toNat ∧ k < s.rowBytes ∧ a = y * s.rowBytes + k) ∨ s.memSize ≤ a := by
  rw [State.memSize_eq_rows]
  by_cases ha : a < s.height.toNat * s.rowBytes
  · have hrb : 0 < s.rowBytes := Nat.pos_of_mul_pos_left (Nat.zero_lt_of_lt ha)
    exact .inl ⟨a / s.rowBytes, a % s.rowBytes, Nat.div_lt_of_lt_mul (by rwa [Nat.mul_comm] at ha), Nat.mod_lt a hrb,
      (Nat.div_add_mod' a s.rowBytes).symm⟩
  · exact .inr (Nat.not_lt.1 ha)

theorem KeepsDimensions.trans {s t u : State} (h : KeepsDimensions s t) (h' : KeepsDimensions t u) :
    KeepsDimensions s u := ⟨h'.width.trans h.width, h'.height.trans h.height, h'.alloc.trans h.alloc⟩

/-- The bytes of a row are counted from the width (R35). -/
theorem KeepsDimensions.rowBytes {s t : State} (h : KeepsDimensions s t) : t.rowBytes = s.rowBytes := by
  rw [State.rowBytes, State.rowBytes, h.width]

/-- Pixel (x, y) starts at byte `3*x` of row `y` (R53). -/
theorem State.pixel_address (s : State) (x y : Nat) : 3 * (x + y * s.width.toNat) = y * s.rowBytes + 3 * x := by
  rw [State.rowBytes]
  ring

/-- Canonical memories of buffers of the same size are equal exactly when they hold the same byte in every row and outside
the buffer (log 6). -/
theorem State.mem_eq_of_rows {s t : State} (hs : Memory.wf s.mem) (ht : Memory.wf t.mem)
    (hrows : ∀ y k, y < s.height.toNat → k < s.rowBytes → t.byteAt (y * s.rowBytes + k) = s.byteAt (y * s.rowBytes + k))
    (houtside : ∀ a, s.memSize ≤ a → t.byteAt a = s.byteAt a) : t.mem = s.mem := by
  refine Memory.ext_of_read ht hs fun a => ?_
  obtain ⟨y, k, hy, hk, rfl⟩ | ha := s.address_cases a
  · exact hrows y k hy hk
  · exact houtside a ha

/-! ### The loop, row by row (R105) -/

/-- How far a row is from the nearer edge: the turn of the flip that moves the row. -/
def edgeDistance (height y : Nat) : Nat := min y (height - 1 - y)

/-- The row whose bytes row `y` gets from the turns `i` to `j - 1`: its mirror row if its own turn is among them. -/
def rowBroughtBy (height i j y : Nat) : Nat :=
  if i ≤ edgeDistance height y ∧ edgeDistance height y < j then height - 1 - y else y

/-- A row and its mirror row are equally far from their edges. -/
theorem edgeDistance_mirror {height y : Nat} (hy : y < height) :
    edgeDistance height (height - 1 - y) = edgeDistance height y := by
  unfold edgeDistance
  omega

/-- No turn moves no row. -/
theorem rowBroughtBy_none (height i y : Nat) : rowBroughtBy height i i y = y := if_neg (by omega)

theorem rowBroughtBy_lt {height y : Nat} (hy : y < height) (i j : Nat) : rowBroughtBy height i j y < height := by
  unfold rowBroughtBy
  split <;> omega

/-- A turn and the turns after it: only one of them moves the row. -/
theorem rowBroughtBy_cons {height i j y : Nat} (hij : i < j) (hy : y < height) :
    rowBroughtBy height i (i + 1) (rowBroughtBy height (i + 1) j y) = rowBroughtBy height i j y := by
  by_cases hlater : i + 1 ≤ edgeDistance height y ∧ edgeDistance height y < j
  · rw [show rowBroughtBy height (i + 1) j y = height - 1 - y from if_pos hlater]
    unfold rowBroughtBy
    rw [edgeDistance_mirror hy, if_neg (by omega), if_pos (by omega)]
  · rw [show rowBroughtBy height (i + 1) j y = y from if_neg hlater]
    unfold rowBroughtBy
    exact if_congr (by omega) rfl rfl

/-- All turns of the flip bring every row its mirror row; a middle row is its own. -/
theorem rowBroughtBy_all {height y : Nat} (hy : y < height) :
    rowBroughtBy height 0 (height / 2) y = height - 1 - y := by
  unfold rowBroughtBy edgeDistance
  split <;> omega

/-- One turn brings each of its two rows the other, and moves no other row. -/
theorem State.swapRows_row {s t : State} (h : 2 * s.flip.j + 1 < s.height.toNat) (hswap : s.swapRows = .ok t) {y k : Nat}
    (hy : y < s.height.toNat) (hk : k < s.rowBytes) :
    t.byteAt (y * s.rowBytes + k) =
      s.byteAt (rowBroughtBy s.height.toNat s.flip.j (s.flip.j + 1) y * s.rowBytes + k) := by
  obtain ⟨_, hswap', -, -, hbytes⟩ := s.swapRows_eq h
  cases hswap.symm.trans hswap'
  have hhigh : s.height.toNat - s.flip.j = s.height.toNat - 1 - s.flip.j + 1 := by omega
  have hback : s.height.toNat - 1 - (s.height.toNat - 1 - s.flip.j) = s.flip.j := by omega
  simp only [hbytes, hhigh, rowByte_mem_row hk]
  unfold rowBroughtBy edgeDistance
  split
  · subst y
    rw [if_pos (by omega), Nat.add_sub_cancel_left]
  · split
    · subst y
      rw [if_pos (by omega), Nat.add_sub_cancel_left, hback]
    · rw [if_neg (by omega)]

/-- The turns from the counter on bring each row what they bring it one after another. -/
theorem State.flipRows_row (n : Nat) {s u : State} (h : 2 * (s.flip.j + n) ≤ s.height.toNat)
    (hrows : State.flipRows n s = .ok u) {y k : Nat} (hy : y < s.height.toNat) (hk : k < s.rowBytes) :
    u.byteAt (y * s.rowBytes + k) =
      s.byteAt (rowBroughtBy s.height.toNat s.flip.j (s.flip.j + n) y * s.rowBytes + k) := by
  induction n generalizing s with
  | zero =>
    cases hrows
    rw [Nat.add_zero, rowBroughtBy_none]
  | succ n ih =>
    obtain ⟨t, hswap, ht, -, -⟩ := s.swapRows_eq (by omega)
    rw [State.flipRows, hswap] at hrows
    have hj : t.flip.j = s.flip.j + 1 := by rw [ht]
    have hheight : t.height = s.height := by rw [ht]
    have hrb : t.rowBytes = s.rowBytes := by rw [ht]; rfl
    have hrest := ih (s := t) (by rw [hj, hheight]; omega) hrows (by rwa [hheight]) (by rwa [hrb])
    rw [hj, hheight, hrb, Nat.add_assoc, Nat.add_comm 1 n] at hrest
    rw [hrest, State.swapRows_row (by omega) hswap (rowBroughtBy_lt hy _ _) hk, rowBroughtBy_cons (by omega) hy]

/-! ### What a flip leaves (R106) -/

/-- Two states of which the second has the first's memory with its rows in reverse order, byte for byte, canonical if the
first's is, and the first's dimensions (R106). -/
structure Flipped (s t : State) : Prop extends KeepsDimensions s t where
  canonical : Memory.wf s.mem → Memory.wf t.mem
  rows : ∀ y k, y < s.height.toNat → k < s.rowBytes →
    t.byteAt (y * s.rowBytes + k) = s.byteAt ((s.height.toNat - 1 - y) * s.rowBytes + k)
  outside : ∀ a, s.memSize ≤ a → t.byteAt a = s.byteAt a

/-- With a buffer `flipVertically` leaves the flipped memory, and of the rest only the flip's own registers change before
the epilogue (R105, R106). A middle row stays in place. -/
theorem exec_flipVertically_flipped {s : State} (ha : s.alloc = true) :
    ∃ m f, exec .flipVertically s = .next ({ s with mem := m, flip := f }.complete .ok 0) ∧
      Flipped s ({ s with mem := m, flip := f }.complete .ok 0) := by
  have hturns : 2 * (0 + s.height.toNat / 2) ≤ s.height.toNat := by omega
  obtain ⟨m, f, hrows, -, -, hwf, houtside⟩ := State.flipRows_spec (s.height.toNat / 2)
    { s with flip := { s.flip with j := 0 } } hturns
  refine ⟨m, f, exec_flipVertically ha hrows, ?_⟩
  have hkeeps : KeepsDimensions s { s with mem := m, flip := f } := ⟨rfl, rfl, rfl⟩
  refine { hkeeps.complete .ok 0 with canonical := hwf, rows := fun y k hy hk => ?_, outside := houtside }
  have hbyte := State.flipRows_row _ hturns hrows hy hk
  simp only [Nat.zero_add, rowBroughtBy_all hy] at hbyte
  exact hbyte

namespace Flipped
variable {s t : State} (h : Flipped s t)
include h

/-- The pixels of a row are those of the row as far from the other edge (R106). -/
theorem pixel {x y : Nat} (hx : x < s.width.toNat) (hy : y < s.height.toNat) :
    t.pixel (x + y * s.width.toNat) = s.pixel (x + (s.height.toNat - 1 - y) * s.width.toNat) := by
  have hbyte (i : Nat) (hi : i < 3) := h.rows y (3 * x + i) hy (by rw [State.rowBytes]; omega)
  have h0 := hbyte 0 (by omega)
  have h1 := hbyte 1 (by omega)
  have h2 := hbyte 2 (by omega)
  simp only [State.pixel_eq, State.pixel_address, Nat.add_assoc]
  rw [h1, h2]
  exact congrArg (Colour.mk · _ _) h0

/-- The memory is the one before exactly when every row is the same as its mirror row (R107). -/
theorem mem_eq_iff (hwf : Memory.wf s.mem) : t.mem = s.mem ↔ ∀ y k : Nat, y < s.height.toNat → k < s.rowBytes →
    s.byteAt (y * s.rowBytes + k) = s.byteAt ((s.height.toNat - 1 - y) * s.rowBytes + k) := by
  constructor
  · intro hmem y k hy hk
    rw [← h.rows y k hy hk, State.byteAt, State.byteAt, hmem]
  · intro hmirror
    exact State.mem_eq_of_rows hwf (h.canonical hwf)
      (fun y k hy hk => (h.rows y k hy hk).trans (hmirror y k hy hk).symm) h.outside

/-- Flipped twice the memory is the one before: each row is back in its place (R107). -/
theorem twice {u : State} (h' : Flipped t u) (hwf : Memory.wf s.mem) : u.mem = s.mem := by
  refine State.mem_eq_of_rows hwf (h'.canonical (h.canonical hwf)) (fun y k hy hk => ?_) fun a ha => ?_
  · have hback := h'.rows y k (by rwa [h.height]) (by rwa [h.toKeepsDimensions.rowBytes])
    rw [h.height, h.toKeepsDimensions.rowBytes] at hback
    rw [hback, h.rows _ k (by omega) hk, Nat.sub_sub_self (by omega)]
  · exact (h'.outside a (by rwa [h.toKeepsDimensions.memSize])).trans (h.outside a ha)

/-- What a flip leaves is fixed by the memory and the dimensions before it. -/
theorem mem_unique (hwf : Memory.wf s.mem) {s' t' : State} (h' : Flipped s' t') (hkeeps : KeepsDimensions s s')
    (hmem : s'.mem = s.mem) : t'.mem = t.mem := by
  have hbyte (a : Nat) : s'.byteAt a = s.byteAt a := by rw [State.byteAt, State.byteAt, hmem]
  refine State.mem_eq_of_rows (h.canonical hwf) (h'.canonical (hmem ▸ hwf)) (fun y k hy hk => ?_) fun a ha => ?_
  · rw [h.height] at hy
    rw [h.toKeepsDimensions.rowBytes] at hk ⊢
    have hrow := h'.rows y k (by rwa [hkeeps.height]) (by rwa [hkeeps.rowBytes])
    rw [hkeeps.height, hkeeps.rowBytes, hbyte] at hrow
    exact hrow.trans (h.rows y k hy hk).symm
  · rw [h.toKeepsDimensions.memSize] at ha
    exact (h'.outside a (by rwa [hkeeps.memSize])).trans ((hbyte a).trans (h.outside a ha).symm)

end Flipped

/-- Settles O27: the turns bring every row its mirror row, and the epilogue leaves the memory. -/
theorem flipReversesTheRows : Obligations.FlipReversesTheRows := by
  intro s ha
  obtain ⟨m, f, hexec, hflipped⟩ := exec_flipVertically_flipped ha
  have hstatus : { s with mem := m, flip := f }.status = s.status := rfl
  exact ⟨_, hexec, State.complete_ended_of_status hstatus .ok 0, hflipped.toKeepsDimensions, ⟨rfl, rfl⟩, rfl, rfl, rfl,
    fun _ _ => hflipped.pixel, hflipped.rows, hflipped.outside⟩

/-! ### Flip after flip (R107) -/

theorem State.flips_succ {s t u : State} {n : Nat} (ht : s.flips n = some t) (hu : exec .flipVertically t = .next u) :
    s.flips (n + 1) = some u := by
  simp only [State.flips, ht, hu]

/-- A buffer can be flipped twice. -/
theorem exec_flipVertically_twice {s : State} (ha : s.alloc = true) :
    ∃ t u, exec .flipVertically s = .next t ∧ exec .flipVertically t = .next u ∧ Flipped s t ∧ Flipped t u := by
  obtain ⟨_, _, hfirst, hflipped⟩ := exec_flipVertically_flipped ha
  obtain ⟨_, _, hsecond, hflipped'⟩ := exec_flipVertically_flipped (hflipped.alloc.trans ha)
  exact ⟨_, _, hfirst, hsecond, hflipped, hflipped'⟩

/-- After an even number of flips the memory is the one at first (R107). -/
theorem State.flips_even {s : State} (ha : s.alloc = true) (hwf : Memory.wf s.mem) (n : Nat) :
    ∃ v, s.flips (2 * n) = some v ∧ v.mem = s.mem ∧ KeepsDimensions s v := by
  induction n with
  | zero => exact ⟨s, rfl, rfl, rfl, rfl, rfl⟩
  | succ n ih =>
    obtain ⟨v, hv, hmem, hkeeps⟩ := ih
    obtain ⟨t, u, hfirst, hsecond, hflipped, hflipped'⟩ := exec_flipVertically_twice (hkeeps.alloc.trans ha)
    exact ⟨u, State.flips_succ (State.flips_succ hv hfirst) hsecond, (hflipped.twice hflipped' (hmem ▸ hwf)).trans hmem,
      hkeeps.trans (hflipped.toKeepsDimensions.trans hflipped'.toKeepsDimensions)⟩

/-- Settles O28: a row mirrored twice is back in its place, so the flips of an even number leave the first memory, and one
more leaves what the first flip left. -/
theorem flipTwiceRestoresTheBuffer : Obligations.FlipTwiceRestoresTheBuffer := by
  intro s ha hwf
  obtain ⟨t, u, hfirst, hsecond, hflipped, hflipped'⟩ := exec_flipVertically_twice ha
  refine ⟨t, u, hfirst, hsecond, hflipped.twice hflipped' hwf, fun n => ?_, hflipped.mem_eq_iff hwf⟩
  obtain ⟨v, hv, hmem, hkeeps⟩ := State.flips_even ha hwf n
  obtain ⟨_, _, hexec, hodd⟩ := exec_flipVertically_flipped (hkeeps.alloc.trans ha)
  exact ⟨v, _, hv, hmem, State.flips_succ hv hexec, hflipped.mem_unique hwf hodd hkeeps hmem⟩

end Sys2Proof.Machine
end

section
/-! PROOFS. Family 41_rle_encoder.md, the packets of a picture: the chunk rule cuts it into whole chunks one after the other
(R126, R127, R129), and the reference decoder reads their packets back (R89, R128). -/

namespace Sys2Proof.Machine

/-! ### The picture cut into chunks (R126, R127, R129) -/

/-- The packets of a picture cut into whole chunks, each the packet of its chunk. -/
inductive Chunks : List Colour → List Packet → Prop
  | nil : Chunks [] []
  | cons {ps : List Colour} {raw : Bool} {len : Nat} {pks : List Packet} (first : IsChunk ps raw len)
      (rest : Chunks (ps.drop len) pks) : Chunks ps (chunkPacket ps raw len :: pks)

/-- The rest of a picture from a pixel of it on begins with a whole chunk: the one that the look-ahead finds. -/
theorem State.exists_isChunk {s : State} {i : Nat} (h : i < s.npix) : ∃ raw len, IsChunk (s.pixels.drop i) raw len := by
  have hscanned : Scanned (s.pixels.drop i) true 1 := ⟨Nat.le_refl 1, by simp; omega, fun _ h1 hk => by omega⟩
  exact ⟨_, _, s.lookAhead_isChunk Config.maxChunk
    (EncoderRegs.running_startChunk (e := { s.enc with npixels := s.npix, curpix := i }) rfl h) hscanned (fun _ => rfl)
    (Nat.le_add_right 128 1)⟩

/-- The packets of the chunk rule are those of whole chunks. -/
theorem State.chunks_rlePackets (n : Nat) {s : State} {i : Nat} (h : s.npix ≤ i + n) :
    Chunks (s.pixels.drop i) (rlePackets n (s.pixels.drop i)) := by
  induction n generalizing i with
  | zero =>
    rw [List.drop_eq_nil_of_le (by simpa using h)]
    exact .nil
  | succ n ih =>
    by_cases hi : i < s.npix
    · obtain ⟨raw, len, hchunk⟩ := State.exists_isChunk hi
      have hpos := hchunk.positive
      rw [rlePackets_succ (by simpa using hi) hchunk.chunkOf_eq]
      refine .cons hchunk ?_
      rw [List.drop_drop]
      exact ih (by omega)
    · rw [List.drop_eq_nil_of_le (by simpa using hi)]
      exact .nil

/-- The packets of the whole picture. -/
def State.packets (s : State) : List Packet := rlePackets s.npix s.pixels

theorem State.chunks_packets (s : State) : Chunks s.pixels s.packets :=
  State.chunks_rlePackets s.npix (i := 0) (Nat.zero_add _).ge

/-! ### What a packet of a chunk is (R78, R126) -/

/-- A packet that a stream can hold: a raw one of 1 to 128 pixels, each with its triple, or a run of 2 to 128 with one. -/
def LegalPacket (p : Packet) : Prop :=
  p.count ≤ 128 ∧ (if p.isRun then 2 ≤ p.count ∧ p.triples.length = 1 else 1 ≤ p.count ∧ p.triples.length = p.count)

section Chunk
variable {ps : List Colour} {raw : Bool} {len : Nat} (h : IsChunk ps raw len)
include h

theorem IsChunk.legalPacket : LegalPacket (chunkPacket ps raw len) := by
  have hpos := h.positive
  obtain ⟨h128, hlength⟩ := Nat.le_min.1 h.capped
  refine ⟨h128, ?_⟩
  cases raw with
  | true => exact ⟨hpos, List.length_take_of_le hlength⟩
  | false => exact ⟨h.run rfl, List.length_take_of_le (hpos.trans hlength)⟩

/-- The packet of a chunk stands for the chunk's pixels; those of a run all equal its one triple (R127). -/
theorem IsChunk.packet_pixels : (chunkPacket ps raw len).pixels = ps.take len := by
  cases raw with
  | true => rfl
  | false =>
    have hpos := h.positive
    have hlength := (Nat.le_min.1 h.capped).2
    obtain ⟨p, rest, rfl⟩ := List.exists_cons_of_length_pos (hpos.trans hlength)
    refine (List.eq_replicate_iff.2 ⟨List.length_take_of_le hlength, fun c hc => ?_⟩).symm
    obtain ⟨k, hk, rfl⟩ := List.mem_take_iff_getElem.1 hc
    exact Option.some.inj ((List.getElem?_eq_getElem _).symm.trans (h.run_getElem? (by omega)))

end Chunk

section Chunks
variable {ps : List Colour} {pks : List Packet} (h : Chunks ps pks)
include h

/-- Every packet is that of a whole chunk of the picture. -/
theorem Chunks.exists_isChunk {p : Packet} (hp : p ∈ pks) :
    ∃ i raw len, IsChunk (ps.drop i) raw len ∧ p = chunkPacket (ps.drop i) raw len := by
  induction h with
  | nil => cases hp
  | @cons ps raw len pks hfirst _ ih =>
    rcases List.mem_cons.1 hp with rfl | hp
    · exact ⟨0, raw, len, hfirst, rfl⟩
    · obtain ⟨i, raw', len', hchunk, rfl⟩ := ih hp
      rw [List.drop_drop] at hchunk ⊢
      exact ⟨len + i, raw', len', hchunk, rfl⟩

theorem Chunks.legalPackets : ∀ p ∈ pks, LegalPacket p := by
  intro p hp
  obtain ⟨i, raw, len, hchunk, rfl⟩ := h.exists_isChunk hp
  exact hchunk.legalPacket

/-- The chunks follow each other with no gap and no overlap (R127). -/
theorem Chunks.pixels_eq : pks.flatMap Packet.pixels = ps := by
  induction h with
  | nil => rfl
  | @cons ps raw len pks hfirst _ ih => rw [List.flatMap_cons, ih, hfirst.packet_pixels, List.take_append_drop]

theorem Chunks.sum_count : (pks.map Packet.count).sum = ps.length := by
  induction h with
  | nil => rfl
  | @cons ps raw len pks hfirst _ ih =>
    rw [List.map_cons, List.sum_cons, ih, List.length_drop]
    exact Nat.add_sub_cancel' (Nat.le_min.1 hfirst.capped).2

end Chunks

/-! ### Packets and their bytes (R78 to R80, R89) -/

theorem length_packetBytes (p : Packet) : (packetBytes p).length = 3 * p.triples.length + 1 := by
  rw [packetBytes, List.length_cons, List.length_flatMap]
  simp [colourBytes, Nat.mul_comm]

/-- The reference decoder takes the triples of colours off the bytes that begin with theirs. -/
theorem takeTriples_colourBytes (cs : List Colour) (bs : List Byte) :
    takeTriples cs.length (cs.flatMap colourBytes ++ bs) = some (cs, bs) := by
  induction cs with
  | nil => simp [takeTriples]
  | cons c cs ih => simp [takeTriples, colourBytes, ih]

/-- The reference decoder reads a packet whose kind and count its count byte says, and whose triples follow (R78, R87). -/
theorem parsePackets_cons {p : Packet} {cb : Byte} (hkind : cb.getLsbD 7 = p.isRun)
    (hcount : (if p.isRun then cb.toNat - 127 else cb.toNat + 1) = p.count)
    (htriples : (if p.isRun then 1 else p.count) = p.triples.length) (fuel : Nat) (bs : List Byte) :
    parsePackets (fuel + 1) (cb :: p.triples.flatMap colourBytes ++ bs) = (parsePackets fuel bs).map (p :: ·) := by
  rw [List.cons_append, parsePackets]
  simp only [hkind, hcount, htriples, takeTriples_colourBytes]
  cases parsePackets fuel bs <;> rfl

/-- The reference decoder reads a packet back from the bytes that begin with its own. -/
theorem parsePackets_packetBytes {p : Packet} (h : LegalPacket p) (fuel : Nat) (bs : List Byte) :
    parsePackets (fuel + 1) (packetBytes p ++ bs) = (parsePackets fuel bs).map (p :: ·) := by
  cases hrun : p.isRun with
  | true =>
    rw [LegalPacket, hrun, if_pos rfl] at h
    obtain ⟨h128, h2, htriples⟩ := h
    have hbyte := runCountByte_toNat (isPacketCount_iff.2 ⟨Nat.le_of_succ_le h2, h128⟩)
    rw [packetBytes, hrun, if_pos rfl]
    refine parsePackets_cons ?_ ?_ ?_ fuel bs
    · rw [byte_bit7, hbyte, hrun, decide_eq_true_eq]
      omega
    · rw [hrun, if_pos rfl, hbyte, Nat.add_sub_cancel]
    · rw [hrun, if_pos rfl, htriples]
  | false =>
    rw [LegalPacket, hrun, if_neg Bool.false_ne_true] at h
    obtain ⟨h128, h1, htriples⟩ := h
    have hbyte := rawCountByte_toNat (isPacketCount_iff.2 ⟨h1, h128⟩)
    rw [packetBytes, hrun, if_neg Bool.false_ne_true]
    refine parsePackets_cons ?_ ?_ ?_ fuel bs
    · rw [byte_bit7, hbyte, hrun, decide_eq_false_iff_not]
      omega
    · rw [hrun, if_neg Bool.false_ne_true, hbyte, Nat.sub_add_cancel h1]
    · rw [hrun, if_neg Bool.false_ne_true, htriples]

/-- The reference decoder reads packets back from their bytes when it has a turn for each byte: no packet is empty. -/
theorem parsePackets_flatMap {pks : List Packet} (h : ∀ p ∈ pks, LegalPacket p) {fuel : Nat}
    (hfuel : (pks.flatMap packetBytes).length ≤ fuel) : parsePackets fuel (pks.flatMap packetBytes) = some pks := by
  induction pks generalizing fuel with
  | nil => cases fuel <;> rfl
  | cons p pks ih =>
    rw [List.flatMap_cons, List.length_append, length_packetBytes] at hfuel
    obtain ⟨fuel, rfl⟩ : ∃ k, fuel = k + 1 := ⟨fuel - 1, by omega⟩
    rw [List.flatMap_cons, parsePackets_packetBytes (h p (by simp)), ih (fun q hq => h q (by simp [hq])) (by omega)]
    rfl

/-- The reference decoder reads the packets back from a stream of packets. -/
theorem packetsOf_flatMap {pks : List Packet} (h : ∀ p ∈ pks, LegalPacket p) :
    packetsOf (pks.flatMap packetBytes) = some pks := parsePackets_flatMap h (Nat.le_refl _)

end Sys2Proof.Machine
end

section
/-! PROOFS. Family 41_rle_encoder.md, the stream of `encode` (R121, R126 to R130, R136): the packets of the picture's chunks,
and of which sizes they are where the picture's pixels are all equal or no two neighbours are. -/

namespace Sys2Proof.Machine

/-! ### The stream and its packets (R126 to R129) -/

section Encode
variable {s : State} (ha : s.alloc = true) (hsink : s.sinkFailAt = none)
include ha hsink

/-- With a sink that refuses nothing, `encode` ends with `OK` and the packets of the chunk rule on the stream. -/
theorem exec_encode_accepting : ∃ t, exec .encode s = .next t ∧ Ended s t .ok 0 ∧ t.stream = rleOf s.pixels := by
  obtain ⟨e, hencode⟩ := s.openStream.emitRLE_emits.finish_accepting hsink
  exact ⟨_, (exec_encode ha).trans hencode, State.complete_ended_of_status (by exact rfl) .ok 0, rfl⟩

/-- That stream is the bytes of the picture's packets, which the reference decoder reads back. -/
theorem exec_encode_packets :
    ∃ t, exec .encode s = .next t ∧ t.stream = s.packets.flatMap packetBytes ∧ packetsOf t.stream = some s.packets := by
  obtain ⟨t, hexec, -, hstream⟩ := exec_encode_accepting ha hsink
  rw [rleOf, State.pixels_length] at hstream
  exact ⟨t, hexec, hstream, hstream ▸ packetsOf_flatMap s.chunks_packets.legalPackets⟩

end Encode

/-- Settles O37: the packet loop's emission is that of the chunk rule's packets, which the sink takes whole. -/
theorem encodeFollowsTheChunkRule : Obligations.EncodeFollowsTheChunkRule :=
  fun _ => exec_encode_accepting

/-- Settles O38: the packets that the reference decoder reads back stand for the picture's chunks, in order. -/
theorem decodedStreamIsThePicture : Obligations.DecodedStreamIsThePicture := by
  intro s ha hsink
  obtain ⟨t, hexec, -, hpackets⟩ := exec_encode_packets ha hsink
  refine ⟨t, hexec, ?_⟩
  rw [decodeStreamPixels, hpackets, ← s.chunks_packets.pixels_eq]

/-- Settles O39: each packet is legal and stands for a chunk, and the chunks follow each other through the whole picture. -/
theorem packetsPartitionThePicture : Obligations.PacketsPartitionThePicture := by
  intro s ha hsink
  obtain ⟨t, hexec, hstream, hpackets⟩ := exec_encode_packets ha hsink
  have hchunks := s.chunks_packets
  exact ⟨t, s.packets, hexec, hpackets, hstream.symm, hchunks.legalPackets, hchunks.sum_count.trans s.pixels_length,
    hchunks.pixels_eq⟩

/-! ### Pictures whose chunks are as long as can be -/

/-- A number of pixels in chunks of 128 and one of the rest. -/
def fullChunks (n : Nat) : List Nat := List.replicate (n / 128) 128 ++ (if n % 128 = 0 then [] else [n % 128])

theorem fullChunks_eq_cons {n : Nat} (h : 1 ≤ n) : fullChunks n = min 128 n :: fullChunks (n - min 128 n) := by
  rcases Nat.lt_or_ge n 128 with hlt | hge
  · rw [Nat.min_eq_right hlt.le, Nat.sub_self, fullChunks, Nat.div_eq_of_lt hlt, Nat.mod_eq_of_lt hlt, if_neg (by omega)]
    rfl
  · obtain ⟨m, rfl⟩ := Nat.exists_eq_add_of_le' hge
    rw [Nat.min_eq_left hge, Nat.add_sub_cancel, fullChunks, Nat.add_div_right m (by decide), Nat.add_mod_right]
    rfl

theorem length_fullChunks (n : Nat) : (fullChunks n).length = (n + 127) / 128 := by
  rw [fullChunks, List.length_append, List.length_replicate]
  split <;> simp only [List.length_nil, List.length_singleton] <;> omega

/-- Where nothing but the cap and the end of the picture ends a chunk, all chunks but the last have 128 pixels. -/
theorem Chunks.map_count {ps : List Colour} {pks : List Packet} (h : Chunks ps pks)
    (hfull : ∀ i raw len, IsChunk (ps.drop i) raw len → len = min 128 (ps.drop i).length) :
    pks.map Packet.count = fullChunks ps.length := by
  induction h with
  | nil => rfl
  | @cons ps raw len pks hfirst _ ih =>
    have hpos := hfirst.positive
    have hcap := hfirst.capped
    have hlen : len = min 128 ps.length := hfull 0 raw len hfirst
    rw [fullChunks_eq_cons (by omega), ← hlen, ← List.length_drop, List.map_cons, ih fun i => ?_]
    · rfl
    · rw [List.drop_drop]
      exact hfull (len + i)

/-! ### Uniform pictures (R130) -/

/-- The packet of pixels that all equal one colour: raw if it is one, else a run. -/
def uniformPacket (p : Colour) (count : Nat) : Packet := { isRun := decide (count ≠ 1), count := count, triples := [p] }

/-- A chunk of equal pixels goes on to the cap or the end, and is raw only where it has no two of them to compare. -/
theorem IsChunk.of_replicate {p : Colour} {n : Nat} {raw : Bool} {len : Nat} (h : IsChunk (List.replicate n p) raw len) :
    len = min 128 n ∧ chunkPacket (List.replicate n p) raw len = uniformPacket p len := by
  have hpos := h.positive
  have hcap := h.capped
  have hdiffers := h.differs
  have hneighbours := h.neighbours 1 (Nat.le_refl 1)
  rw [List.length_replicate] at hcap hdiffers
  have hlen : len = min 128 n := by
    by_contra hne
    refine hdiffers (by omega) ?_
    rw [List.getElem?_replicate_of_lt (by omega), List.getElem?_replicate_of_lt (by omega)]
  have hpixels : (List.replicate n p).take 1 = [p] := by
    rw [List.take_replicate, Nat.min_eq_left (by omega)]
    rfl
  refine ⟨hlen, ?_⟩
  cases raw with
  | true =>
    have h1 : len = 1 := by
      by_contra hne
      have hequal := hneighbours (by omega)
      rw [List.getElem?_replicate_of_lt (by omega), List.getElem?_replicate_of_lt (by omega)] at hequal
      exact Bool.false_ne_true (hequal.1 rfl).symm
    subst h1
    exact congrArg (Packet.mk false 1) hpixels
  | false =>
    have hrun := h.run rfl
    have hkind : decide (len ≠ 1) = true := decide_eq_true (by omega)
    rw [uniformPacket, hkind]
    exact congrArg (Packet.mk true len) hpixels

theorem packetBytes_uniformPacket (p : Colour) (n : Nat) :
    packetBytes (uniformPacket p n) = (if n = 1 then 0 else BitVec.ofNat 8 (n + 127)) :: colourBytes p := by
  by_cases h : n = 1
  · subst h; rfl
  · simp [packetBytes, uniformPacket, h, runCountByte]

/-- A uniform picture's packets are those of its colour, of 128 pixels and one of the rest. -/
theorem Chunks.eq_uniform {p : Colour} {n : Nat} {pks : List Packet} (h : Chunks (List.replicate n p) pks) :
    pks = (fullChunks n).map (uniformPacket p) := by
  have hcounts := h.map_count fun i raw len hchunk => by
    rw [List.drop_replicate] at hchunk ⊢
    rw [List.length_replicate]
    exact hchunk.of_replicate.1
  rw [List.length_replicate] at hcounts
  have hpacket : ∀ q ∈ pks, uniformPacket p q.count = q := by
    intro q hq
    obtain ⟨i, raw, len, hchunk, rfl⟩ := h.exists_isChunk hq
    rw [List.drop_replicate] at hchunk ⊢
    exact hchunk.of_replicate.2.symm
  rw [← hcounts, List.map_map]
  exact (List.map_congr_left hpacket).trans (List.map_id pks) |>.symm

/-- Settles O40: the packets are those of the colour, of 128 pixels and one of the rest. -/
theorem uniformPictureIsRuns : Obligations.UniformPictureIsRuns := by
  intro s p ha hsink huniform
  obtain ⟨t, hexec, hstream, -⟩ := exec_encode_packets ha hsink
  have hpackets := (huniform ▸ s.chunks_packets).eq_uniform
  refine ⟨t, hexec, ?_⟩
  rw [hstream, hpackets, fullChunks, List.flatMap_map]
  simp only [packetBytes_uniformPacket, List.flatMap_append, List.flatMap_replicate]
  congr 1
  split_ifs with h0 h1
  · rfl
  · rw [List.flatMap_singleton, if_pos h1]
  · rw [List.flatMap_singleton, if_neg h1]

/-! ### Alternating pictures (R136) -/

/-- No two pixels that follow each other are equal. -/
def Alternating (ps : List Colour) : Prop := ∀ k, k + 1 < ps.length → ps[k]? ≠ ps[k + 1]?

theorem Alternating.drop {ps : List Colour} (h : Alternating ps) (i : Nat) : Alternating (ps.drop i) := by
  intro k hk
  rw [List.length_drop] at hk
  rw [List.getElem?_drop, List.getElem?_drop]
  exact h (i + k) (by omega)

theorem State.alternating_pixels {s : State} (h : ∀ i, i + 1 < s.npix → s.pixel i ≠ s.pixel (i + 1)) :
    Alternating s.pixels := by
  intro k hk hequal
  rw [State.pixels_length] at hk
  refine h k hk (Option.some.inj ?_)
  simpa [State.pixels, hk, Nat.lt_of_succ_lt hk] using hequal

/-- A chunk with no equal neighbours is raw and goes on to the cap or the end. -/
theorem IsChunk.of_alternating {ps : List Colour} {raw : Bool} {len : Nat} (h : IsChunk ps raw len) (hps : Alternating ps) :
    raw = true ∧ len = min 128 ps.length := by
  have hcap := h.capped
  have hraw : raw = true := by
    by_contra hrun
    rw [Bool.not_eq_true] at hrun
    have h2 := h.run hrun
    exact hps 0 (by omega) ((h.neighbours 1 (Nat.le_refl 1) h2).2 hrun)
  refine ⟨hraw, ?_⟩
  by_contra hne
  obtain ⟨hnext, hequal⟩ := h.nextRun (by omega) hraw
  exact hps len (by omega) hequal

/-- A packet has at most four bytes a pixel: one pixel pays for the count byte. -/
theorem LegalPacket.length_packetBytes_le {p : Packet} (h : LegalPacket p) : (packetBytes p).length ≤ 4 * p.count := by
  obtain ⟨-, h⟩ := h
  rw [length_packetBytes]
  split at h <;> omega

/-- A raw packet has three bytes a pixel and the count byte. -/
theorem LegalPacket.length_packetBytes_raw {p : Packet} (h : LegalPacket p) (hraw : p.isRun = false) :
    (packetBytes p).length = 3 * p.count + 1 := by
  rw [LegalPacket, hraw, if_neg Bool.false_ne_true] at h
  obtain ⟨-, -, htriples⟩ := h
  rw [length_packetBytes, htriples]

section Length
variable {pks : List Packet} (h : ∀ p ∈ pks, LegalPacket p)
include h

theorem length_stream_le : (pks.flatMap packetBytes).length ≤ 4 * (pks.map Packet.count).sum := by
  rw [List.length_flatMap, ← List.sum_map_mul_left]
  exact List.sum_le_sum fun p hp => (h p hp).length_packetBytes_le

theorem length_stream_raw (hraw : ∀ p ∈ pks, p.isRun = false) :
    (pks.flatMap packetBytes).length = 3 * (pks.map Packet.count).sum + pks.length := by
  rw [List.length_flatMap, List.map_congr_left fun p hp => (h p hp).length_packetBytes_raw (hraw p hp), List.sum_map_add,
    List.sum_map_mul_left]
  simp

end Length

/-- Settles O41: no chunk of an alternating picture is a run or ends before the cap, and each packet has one byte more than
its triples. -/
theorem alternatingPictureIsRawPackets : Obligations.AlternatingPictureIsRawPackets := by
  intro s ha hsink
  obtain ⟨t, hexec, hstream, hpackets⟩ := exec_encode_packets ha hsink
  have hchunks := s.chunks_packets
  have hsum := hchunks.sum_count.trans s.pixels_length
  refine ⟨t, s.packets, hexec, hpackets, ?_, fun hne => ?_⟩
  · rw [hstream, ← hsum]
    exact length_stream_le hchunks.legalPackets
  · have halternating : Alternating s.pixels := State.alternating_pixels hne
    have hraw : ∀ p ∈ s.packets, p.isRun = false := by
      intro p hp
      obtain ⟨i, raw, len, hchunk, rfl⟩ := hchunks.exists_isChunk hp
      exact congrArg (!·) (hchunk.of_alternating (halternating.drop i)).1
    have hcounts := hchunks.map_count fun i raw len hchunk => (hchunk.of_alternating (halternating.drop i)).2
    rw [s.pixels_length] at hcounts
    refine ⟨hraw, hcounts, ?_⟩
    rw [hstream, length_stream_raw hchunks.legalPackets hraw, hsum, ← List.length_map (f := Packet.count), hcounts,
      length_fullChunks]

end Sys2Proof.Machine
end

section
/-! PROOFS. Family 41_rle_encoder.md, an element with a refused byte (R135, R153, log 8): an element's bytes are the same
whatever the sink answers. -/

namespace Sys2Proof.Machine

/-- Whether a packet draws free values does not depend on the sink (log 19). -/
theorem State.drawPastEnd_sink (s : State) (f : Option Nat) (n : Nat) :
    State.drawPastEnd { s with sinkFailAt := f } n = { s.drawPastEnd n with sinkFailAt := f } := by
  by_cases h : s.enc.curpix + n ≤ s.npix
  · rw [State.drawPastEnd_inside h]
    exact State.drawPastEnd_inside h
  · have hdraw : s.drawPastEnd n = { s with freeCount := s.freeCount + 1 } := if_neg h
    rw [hdraw]
    exact if_neg h

/-- The end of a chunk, inside the buffer or past its end, emits the same bytes whatever the sink answers (R121). -/
theorem State.emitChunk_sink (s : State) (c : EncoderRegs) (f : Option Nat) :
    State.emitChunk { s with enc := c, sinkFailAt := f } =
      State.emit { s with
        enc := { c with curpix := State.pointerPast { s with enc := c } c.runLength }
        sinkFailAt := f } (s.chunkBytes c) := by
  unfold State.emitChunk State.chunkBytes
  simp only [State.emit_andThen_memRead]
  split <;> rfl

/-- A packet element emits the same bytes whatever the sink answers, and changes nothing else but the encoder's registers and
the count of free draws before it ends (R79, R80). -/
theorem State.emitPacket_sink (s : State) (raw : Bool) (n : Nat) :
    ∃ (e : EncoderRegs) (k : Nat) (bs : List Byte), ∀ f : Option Nat,
      State.emitChunk { State.drawPastEnd { s with sinkFailAt := f } n with enc := s.enc.packet raw n } =
        State.emit { s with enc := e, freeCount := k, sinkFailAt := f } bs := by
  obtain ⟨k, hk⟩ := s.drawPastEnd_eq n
  have hemit (f : Option Nat) := State.emitChunk_sink { s with freeCount := k } (s.enc.packet raw n) f
  refine ⟨_, k, _, fun f => Eq.trans ?_ (hemit f)⟩
  rw [State.drawPastEnd_sink, hk]

/-- What holds of a packet element holds of every stream element. -/
theorem exec_element_sink {s : State} (ha : s.alloc = true) (el : StreamElement) :
    ∃ (e : EncoderRegs) (k : Nat) (bs : List Byte), ∀ f : Option Nat,
      exec el.toInstr { s with sinkFailAt := f } =
        (State.emit { s with enc := e, freeCount := k, sinkFailAt := f } bs).proceed := by
  have ha' (f : Option Nat) : State.alloc { s with sinkFailAt := f } = true := ha
  cases el with
  | rawPacket n =>
    obtain ⟨e, k, bs, hemit⟩ := s.emitPacket_sink true n
    exact ⟨e, k, bs, fun f => (exec_rawPacket (ha' f) n).trans (congrArg Flow.proceed (hemit f))⟩
  | runPacket n =>
    obtain ⟨e, k, bs, hemit⟩ := s.emitPacket_sink false n
    exact ⟨e, k, bs, fun f => (exec_runPacket (ha' f) n).trans (congrArg Flow.proceed (hemit f))⟩
  | tgaHeader r =>
    exact ⟨s.enc, s.freeCount, headerBytes (Config.typeCode r) s.width s.height, fun f => exec_tgaHeader (ha' f) r⟩
  | tgaTrailer => exact ⟨s.enc, s.freeCount, trailerBytes, fun f => exec_tgaTrailer (ha' f)⟩

/-- Settles O49: the sink that refuses a byte is offered those that one which refuses nothing takes, and keeps the ones before
it. -/
theorem refusedElementEndsInIoError : Obligations.RefusedElementEndsInIoError := by
  intro el s u k ha hu hsink hle hlt
  obtain ⟨e, c, bs, hexec⟩ := exec_element_sink ha el
  have haccepted := (hexec none).symm.trans hu
  rw [State.emit_proceed_accepting rfl] at haccepted
  cases haccepted
  rw [List.length_append] at hlt
  have hemit : State.emit { s with enc := e, freeCount := c, sinkFailAt := some k } bs = .refused { s with
      enc := e, freeCount := c, sinkFailAt := some k, stream := s.stream ++ bs.take (k - s.stream.length) } := by
    rw [State.emit_eq]
    exact if_pos ⟨hle, hlt⟩
  have hrefused := (hexec (some k)).trans (congrArg Flow.proceed hemit)
  rw [← hsink] at hrefused
  refine ⟨_, hrefused, State.complete_ended_of_status (by exact rfl) .ioError 0, ⟨rfl, rfl, State.complete_alloc _ _ _⟩,
    ⟨rfl, rfl⟩, rfl, ?_⟩
  rw [List.take_append, List.take_of_length_le hle]
  rfl

end Sys2Proof.Machine
end

section
/-! PROOFS. Family 42_tga_writer.md, the two files (R152, R154): where the header, the payload and the trailer of a file
stand. -/

namespace Sys2Proof.Machine

@[simp] theorem headerBytes_length (code : Byte) (w h : BitVec 16) : (headerBytes code w h).length = 18 := rfl

@[simp] theorem trailerBytes_length : trailerBytes.length = 26 := rfl

/-! ### The parts of a file (R86) -/

/-- R152: a file is 44 bytes longer than its payload. -/
theorem State.file_length (s : State) (r : Bool) : (s.file r).length = 44 + (s.payload r).length := by
  simp only [State.file, List.length_append, headerBytes_length, trailerBytes_length]
  omega

/-- The raw payload is the whole memory (R151). -/
theorem State.payload_false_length (s : State) : (s.payload false).length = s.memSize := s.bytesAt_length 0 s.memSize

theorem State.file_take_header (s : State) (r : Bool) :
    (s.file r).take 18 = headerBytes (Config.typeCode r) s.width s.height := by
  rw [State.file, List.append_assoc]
  exact List.take_left' (headerBytes_length _ _ _)

theorem State.file_drop_header (s : State) (r : Bool) : (s.file r).drop 18 = s.payload r ++ trailerBytes := by
  rw [State.file, List.append_assoc]
  exact List.drop_left' (headerBytes_length _ _ _)

theorem State.file_payload (s : State) (r : Bool) :
    ((s.file r).drop 18).take (s.payload r).length = s.payload r := by
  rw [State.file_drop_header, List.take_left]

theorem State.file_drop_payload (s : State) (r : Bool) :
    (s.file r).drop (18 + (s.payload r).length) = trailerBytes := by
  rw [← List.drop_drop, State.file_drop_header, List.drop_left]

/-- The trailer is the last 26 bytes of a file (R152). -/
theorem State.file_last (s : State) (r : Bool) : (s.file r).drop ((s.file r).length - 26) = trailerBytes := by
  have hstart : (s.file r).length - 26 = 18 + (s.payload r).length := by rw [State.file_length]; omega
  rw [hstart, State.file_drop_payload]

/-! ### The streams of the commands are the payload and the files -/

/-- The three streams of `StreamsHaveTheirThreeShapes`, by name. -/
theorem streams_are_payload_and_files {s : State} (ha : s.alloc = true) (hsink : s.sinkFailAt = none) :
    ∃ e r w, exec .encode s = .next e ∧ exec (.write false) s = .next r ∧ exec (.write true) s = .next w ∧
      e.stream = s.payload true ∧ r.stream = s.file false ∧ w.stream = s.file true := by
  obtain ⟨e, r, w, hencode, hraw, hrle, -, -, -, he, hr, hw⟩ := streamsHaveTheirThreeShapes s ha hsink
  rw [he] at hw
  exact ⟨e, r, w, hencode, hraw, hrle, he, hr, hw⟩

/-- Settles O45: the parts of a file of either form, the raw payload being the memory and the other what `encode` emits. -/
theorem fileLengthsAreAsStated : Obligations.FileLengthsAreAsStated := by
  intro s ha hsink
  obtain ⟨e, r, w, hencode, hraw, hrle, he, hr, hw⟩ := streams_are_payload_and_files ha hsink
  refine ⟨e, r, w, hencode, hraw, hrle, ?_⟩
  rw [he, hr, hw, ← s.payload_false_length]
  have hraw_length : (s.file false).length = 44 + s.width.toNat * s.height.toNat * 3 :=
    (s.file_length false).trans (congrArg (44 + ·) s.payload_false_length)
  exact ⟨hraw_length, s.file_length true, s.file_take_header false, s.file_take_header true, s.file_payload true,
    s.file_drop_payload false, s.file_drop_payload true⟩

/-- Settles O46: the two headers differ in the data type code only, and both files end in the one trailer. -/
theorem rawAndRleFilesAgreeAroundThePayload : Obligations.RawAndRleFilesAgreeAroundThePayload := by
  intro s ha hsink
  obtain ⟨-, r, w, -, hraw, hrle, -, hr, hw⟩ := streams_are_payload_and_files ha hsink
  refine ⟨r, w, hraw, hrle, ?_⟩
  rw [hr, hw]
  refine ⟨rfl, ?_, rfl, rfl, (s.file_last false).trans (s.file_last true).symm⟩
  rw [State.file_take_header, State.file_take_header]
  rfl

end Sys2Proof.Machine
end

section
/-! PROOFS. Family 43_line_rasterizer.md, the walk in closed form (R170 to R176, R178): the rasterizer's registers after each
position, and how the secondary coordinate moves from one position to the next. -/

namespace Sys2Proof.Machine

/-! ### `c(t)`, the rounded secondary distance (R178) -/

/-- The error accumulator that goes with `c(t)`: twice `dx` times what the rounding left off (R174, R178). -/
def LineRegs.errorAt (r : LineRegs) (t : Nat) : Int := 2 * |r.dy| * t - 2 * r.dx * r.secondarySteps t

/-- `c(t)` is the one number of steps whose error lies above `-dx` and not above `dx` (R31, R178). -/
theorem LineRegs.secondarySteps_eq_iff {r : LineRegs} (hd : 0 < r.dx) (t : Nat) (n : Int) :
    r.secondarySteps t = n ↔ -r.dx < 2 * |r.dy| * t - 2 * r.dx * n ∧ 2 * |r.dy| * t - 2 * r.dx * n ≤ r.dx := by
  have hlower := Int.le_ediv_iff_mul_le (a := n) (b := 2 * |r.dy| * t + r.dx - 1) (c := 2 * r.dx) (by omega)
  have hupper := Int.ediv_lt_iff_lt_mul (a := 2 * |r.dy| * t + r.dx - 1) (b := n + 1) (c := 2 * r.dx) (by omega)
  rw [Int.add_mul, Int.one_mul] at hupper
  rw [LineRegs.secondarySteps, if_neg hd.ne', Int.mul_comm (2 * r.dx) n]
  omega

theorem LineRegs.errorAt_bounds {r : LineRegs} (hd : 0 < r.dx) (t : Nat) : -r.dx < r.errorAt t ∧ r.errorAt t ≤ r.dx :=
  (LineRegs.secondarySteps_eq_iff hd t _).1 rfl

theorem LineRegs.secondarySteps_of_dx_eq_zero {r : LineRegs} (hd : r.dx = 0) (t : Nat) : r.secondarySteps t = 0 := if_pos hd

section Flat
variable {r : LineRegs} (flat : |r.dy| ≤ r.dx)
include flat

theorem LineRegs.dx_cases : r.dx = 0 ∧ |r.dy| = 0 ∨ 0 < r.dx := by
  have := abs_nonneg r.dy
  omega

theorem LineRegs.secondarySteps_zero : r.secondarySteps 0 = 0 := by
  rcases LineRegs.dx_cases flat with ⟨hd, -⟩ | hd
  · exact LineRegs.secondarySteps_of_dx_eq_zero hd 0
  · rw [LineRegs.secondarySteps_eq_iff hd]
    simp only [Nat.cast_zero, Int.mul_zero]
    omega

theorem LineRegs.secondarySteps_dx : r.secondarySteps r.dx.toNat = |r.dy| := by
  rcases LineRegs.dx_cases flat with ⟨hd, hdy⟩ | hd
  · rw [LineRegs.secondarySteps_of_dx_eq_zero hd, hdy]
  · rw [LineRegs.secondarySteps_eq_iff hd, Int.toNat_of_nonneg hd.le, Int.mul_right_comm]
    omega

/-- The secondary coordinate steps where the grown error exceeds `dx`, strictly (R173). -/
theorem LineRegs.secondarySteps_succ (t : Nat) :
    r.secondarySteps (t + 1) =
      if r.dx < r.errorAt t + 2 * |r.dy| then r.secondarySteps t + 1 else r.secondarySteps t := by
  have := abs_nonneg r.dy
  rcases LineRegs.dx_cases flat with ⟨hd, hdy⟩ | hd
  · have herror : r.errorAt t = 0 := by rw [LineRegs.errorAt, hd, hdy]; simp
    rw [LineRegs.secondarySteps_of_dx_eq_zero hd, LineRegs.secondarySteps_of_dx_eq_zero hd, if_neg (by omega)]
  · obtain ⟨hlower, hupper⟩ := LineRegs.errorAt_bounds hd t
    rw [LineRegs.secondarySteps_eq_iff hd, Nat.cast_succ, Int.mul_add, Int.mul_one]
    unfold LineRegs.errorAt at *
    split
    · rw [Int.mul_add, Int.mul_one]
      omega
    · omega

/-- From one position to the next the secondary coordinate steps once or not at all. -/
theorem LineRegs.secondarySteps_succ_cases (t : Nat) :
    r.secondarySteps (t + 1) = r.secondarySteps t ∨ r.secondarySteps (t + 1) = r.secondarySteps t + 1 := by
  rw [LineRegs.secondarySteps_succ flat]
  split
  · exact .inr rfl
  · exact .inl rfl

end Flat

/-! ### The registers after each position (R173, R174) -/

/-- The registers after `t` positions, in closed form. -/
def LineRegs.rounded (r : LineRegs) (t : Nat) : LineRegs :=
  { r with err := r.errorAt t, x := r.x0 + t, y := r.y0 + r.ystep * r.secondarySteps t }

/-- The error grows by `2*|dy|` at a position, and falls by `2*dx` where the secondary coordinate steps (R173, R174). -/
theorem LineRegs.errorAt_succ (r : LineRegs) (t : Nat) :
    r.errorAt (t + 1) = r.errorAt t + 2 * |r.dy| - 2 * r.dx * (r.secondarySteps (t + 1) - r.secondarySteps t) := by
  unfold LineRegs.errorAt
  push_cast
  ring

/-- The update at a position leads to the closed form of the next. -/
theorem LineRegs.advance_rounded {r : LineRegs} (flat : |r.dy| ≤ r.dx) (hderr : r.derr = 2 * |r.dy|) (t : Nat) :
    (r.rounded t).advance = r.rounded (t + 1) := by
  have hx : r.x0 + t + 1 = r.x0 + (t + 1 : Nat) := by push_cast; ring
  have hsteps := LineRegs.secondarySteps_succ flat t
  have herror := r.errorAt_succ t
  by_cases hstep : r.dx < r.errorAt t + r.derr
  · rw [if_pos (hderr ▸ hstep)] at hsteps
    have herr : r.errorAt t + r.derr - 2 * r.dx = r.errorAt (t + 1) := by rw [herror, hsteps, hderr]; ring
    have hy : r.y0 + r.ystep * r.secondarySteps t + r.ystep = r.y0 + r.ystep * r.secondarySteps (t + 1) := by
      rw [hsteps]; ring
    have hadvance : (r.rounded t).advance = { r.rounded t with
      err := r.errorAt t + r.derr - 2 * r.dx
      y := r.y0 + r.ystep * r.secondarySteps t + r.ystep
      x := r.x0 + t + 1 } := if_pos hstep
    rw [hadvance, herr, hy, hx]
    rfl
  · rw [if_neg (hderr ▸ hstep)] at hsteps
    have herr : r.errorAt t + r.derr = r.errorAt (t + 1) := by rw [herror, hsteps, hderr]; ring
    have hadvance : (r.rounded t).advance = { r.rounded t with err := r.errorAt t + r.derr, x := r.x0 + t + 1 } :=
      if_neg hstep
    rw [hadvance, herr, hx, LineRegs.rounded, ← hsteps]
    rfl

/-- From one position to the next the dominant coordinate moves by one, and the secondary one by at most one. -/
theorem LineRegs.rounded_succ {r : LineRegs} (flat : |r.dy| ≤ r.dx) (hystep : r.ystep = 1 ∨ r.ystep = -1) (t : Nat) :
    (r.rounded (t + 1)).x = (r.rounded t).x + 1 ∧ |(r.rounded (t + 1)).y - (r.rounded t).y| ≤ 1 := by
  have hunit : |r.ystep| = 1 := by rcases hystep with h | h <;> rw [h] <;> rfl
  refine ⟨by simp only [LineRegs.rounded]; push_cast; ring, ?_⟩
  simp only [LineRegs.rounded, add_sub_add_left_eq_sub, ← mul_sub, abs_mul, hunit, one_mul]
  rcases LineRegs.secondarySteps_succ_cases flat t with h | h <;> rw [h] <;> simp

theorem LineRegs.setup_flat (x0 y0 x1 y1 : Int) (c : Colour) :
    |(LineRegs.setup x0 y0 x1 y1 c).dy| ≤ (LineRegs.setup x0 y0 x1 y1 c).dx :=
  (LineRegs.setup_arrangement x0 y0 x1 y1 c _ rfl).2.2

/-- The walk's registers are those of the closed form (R178). -/
theorem LineRegs.after_setup (x0 y0 x1 y1 : Int) (c : Colour) (t : Nat) :
    (LineRegs.setup x0 y0 x1 y1 c).after t = (LineRegs.setup x0 y0 x1 y1 c).rounded t := by
  have flat := LineRegs.setup_flat x0 y0 x1 y1 c
  induction t with
  | zero =>
    rw [LineRegs.rounded, LineRegs.errorAt, LineRegs.secondarySteps_zero flat]
    simp [LineRegs.after, LineRegs.setup]
  | succ t ih => rw [LineRegs.after_succ, ih, LineRegs.advance_rounded flat rfl]

end Sys2Proof.Machine
end

section
/-! PROOFS. Family 43_line_rasterizer.md, the attempts (R177 to R182): one at each dominant position, from one working
endpoint to the other, each beside the one before. -/

namespace Sys2Proof.Machine

/-! ### The working endpoints (R171, R172, R176) -/

/-- The screen point of a working position, x and y exchanged back in steep mode (R175). -/
def LineRegs.screen (r : LineRegs) (x y : Int) : Int × Int := if r.steep then (y, x) else (x, y)

theorem LineRegs.point_rounded (r : LineRegs) (t : Nat) :
    (r.rounded t).point = r.screen (r.x0 + t) (r.y0 + r.ystep * r.secondarySteps t) := rfl

theorem LineRegs.screen_of_not_steep {r : LineRegs} (h : r.steep = false) (x y : Int) : r.screen x y = (x, y) :=
  if_neg (Bool.eq_false_iff.1 h)

theorem LineRegs.screen_of_steep {r : LineRegs} (h : r.steep = true) (x y : Int) : r.screen x y = (y, x) := if_pos h

/-- On the screen the working endpoints are the given ones, in one order or the other. -/
theorem LineRegs.setup_screen {x0 y0 x1 y1 : Int} {c : Colour} {r : LineRegs} (hr : LineRegs.setup x0 y0 x1 y1 c = r) :
    r.screen r.x0 r.y0 = (x0, y0) ∧ r.screen r.x1 r.y1 = (x1, y1) ∨
      r.screen r.x0 r.y0 = (x1, y1) ∧ r.screen r.x1 r.y1 = (x0, y0) := by
  subst hr
  unfold LineRegs.setup LineRegs.screen
  cases isSteep x0 y0 x1 y1
  · by_cases hswap : x0 > x1 <;> simp [hswap]
  · by_cases hswap : y0 > y1 <;> simp [hswap]

/-- Where the segment is not steep the dominant axis is x, from the lesser coordinate on (R171, R172). -/
theorem LineRegs.setup_of_not_steep {x0 y0 x1 y1 : Int} (h : isSteep x0 y0 x1 y1 = false) (c : Colour) :
    (LineRegs.setup x0 y0 x1 y1 c).x0 = min x0 x1 ∧ (LineRegs.setup x0 y0 x1 y1 c).dx = |x1 - x0| ∧
      |y1 - y0| ≤ |x1 - x0| := by
  have hflat : ¬|x0 - x1| < |y0 - y1| := of_decide_eq_false h
  simp only [LineRegs.setup, h, Int.abs_eq_natAbs, decide_eq_true_eq, Bool.false_eq_true, if_false] at hflat ⊢
  split_ifs <;> omega

/-- Where it is steep the dominant axis is y. -/
theorem LineRegs.setup_of_steep {x0 y0 x1 y1 : Int} (h : isSteep x0 y0 x1 y1 = true) (c : Colour) :
    (LineRegs.setup x0 y0 x1 y1 c).x0 = min y0 y1 ∧ (LineRegs.setup x0 y0 x1 y1 c).dx = |y1 - y0| ∧
      |x1 - x0| ≤ |y1 - y0| := by
  have hsteep : |x0 - x1| < |y0 - y1| := of_decide_eq_true h
  simp only [LineRegs.setup, h, Int.abs_eq_natAbs, decide_eq_true_eq, if_true] at hsteep ⊢
  split_ifs <;> omega

theorem isSteep_comm (x0 y0 x1 y1 : Int) : isSteep x0 y0 x1 y1 = isSteep x1 y1 x0 y0 := by
  unfold isSteep
  rw [abs_sub_comm x0, abs_sub_comm y0]

/-- Steps 1 and 2 forget the order of the endpoints. Only where the dominant coordinates are equal do they not exchange
the ends, and then the ends are the same point. -/
theorem LineRegs.setup_comm (x0 y0 x1 y1 : Int) (c : Colour) :
    LineRegs.setup x0 y0 x1 y1 c = LineRegs.setup x1 y1 x0 y0 c := by
  have hcomm := isSteep_comm x0 y0 x1 y1
  cases hsteep : isSteep x0 y0 x1 y1 with
  | false =>
    have hflat : ¬|x0 - x1| < |y0 - y1| := of_decide_eq_false hsteep
    rcases lt_trichotomy x0 x1 with hlt | rfl | hlt
    · simp [LineRegs.setup, ← hcomm, hsteep, hlt, hlt.not_gt]
    · obtain rfl : y0 = y1 := by simpa [sub_eq_zero] using hflat
      rfl
    · simp [LineRegs.setup, ← hcomm, hsteep, hlt, hlt.not_gt]
  | true =>
    have hlong : |x0 - x1| < |y0 - y1| := of_decide_eq_true hsteep
    rcases lt_trichotomy y0 y1 with hlt | rfl | hlt
    · simp [LineRegs.setup, ← hcomm, hsteep, hlt, hlt.not_gt]
    · have := abs_nonneg (x0 - x1)
      rw [sub_self, abs_zero] at hlong
      omega
    · simp [LineRegs.setup, ← hcomm, hsteep, hlt, hlt.not_gt]

/-- The secondary step is the sign of the secondary distance (R176). -/
theorem ystepOf_mul_abs (y0 y1 : Int) : ystepOf y0 y1 * |y1 - y0| = y1 - y0 := by
  unfold ystepOf
  split
  · rw [abs_of_pos (by omega), Int.one_mul]
  · rw [abs_of_nonpos (by omega), Int.neg_mul_neg, Int.one_mul]

/-! ### The attempts (R178) -/

section Attempts
variable {x0 y0 x1 y1 : Int}

/-- The attempts do not depend on the colour, and are the points of the closed form. -/
theorem lineAttempts_eq_map_rounded (x0 y0 x1 y1 : Int) (c : Colour) :
    lineAttempts x0 y0 x1 y1 =
      (List.range (LineRegs.setup x0 y0 x1 y1 c).positions).map
        fun t => ((LineRegs.setup x0 y0 x1 y1 c).rounded t).point :=
  List.map_congr_left fun t _ => by rw [LineRegs.after_setup]; rfl

theorem lineAttempts_eq_segmentPoints (x0 y0 x1 y1 : Int) : lineAttempts x0 y0 x1 y1 = segmentPoints x0 y0 x1 y1 :=
  lineAttempts_eq_map_rounded x0 y0 x1 y1 Colour.zero

/-- There is a position for each distance from 0 to `dx` (R173). -/
theorem LineRegs.positions_setup (x0 y0 x1 y1 : Int) (c : Colour) :
    ((LineRegs.setup x0 y0 x1 y1 c).positions : Int) = (LineRegs.setup x0 y0 x1 y1 c).dx + 1 := by
  have hdx : 0 ≤ (LineRegs.setup x0 y0 x1 y1 c).dx := (abs_nonneg _).trans (LineRegs.setup_flat x0 y0 x1 y1 c)
  exact Int.toNat_of_nonneg (Int.add_nonneg hdx Int.one_nonneg)

theorem lineAttempts_length (x0 y0 x1 y1 : Int) :
    ((lineAttempts x0 y0 x1 y1).length : Int) = (LineRegs.setup x0 y0 x1 y1 Colour.zero).dx + 1 := by
  rw [lineAttempts_eq_map_rounded x0 y0 x1 y1 Colour.zero, List.length_map, List.length_range, LineRegs.positions_setup]

theorem point_mem_lineAttempts {r : LineRegs} (hr : LineRegs.setup x0 y0 x1 y1 Colour.zero = r) {t : Nat}
    (ht : (t : Int) ≤ r.dx) : (r.rounded t).point ∈ lineAttempts x0 y0 x1 y1 := by
  have hpositions := LineRegs.positions_setup x0 y0 x1 y1 Colour.zero
  rw [lineAttempts_eq_map_rounded x0 y0 x1 y1 Colour.zero]
  subst hr
  exact List.mem_map_of_mem (List.mem_range.2 (by omega))

/-- The first attempt is at the first working endpoint, the last at the second. -/
theorem screen_ends_mem_lineAttempts {r : LineRegs} (hr : LineRegs.setup x0 y0 x1 y1 Colour.zero = r) :
    r.screen r.x0 r.y0 ∈ lineAttempts x0 y0 x1 y1 ∧ r.screen r.x1 r.y1 ∈ lineAttempts x0 y0 x1 y1 := by
  have flat : |r.dy| ≤ r.dx := hr ▸ LineRegs.setup_flat x0 y0 x1 y1 Colour.zero
  have hdx := (abs_nonneg _).trans flat
  constructor
  · have hfirst := point_mem_lineAttempts hr (t := 0) hdx
    simpa [LineRegs.point_rounded, LineRegs.secondarySteps_zero flat] using hfirst
  · have hlast := point_mem_lineAttempts hr (Int.toNat_of_nonneg hdx).le
    have hx : r.x0 + r.dx = r.x1 := by subst hr; exact add_sub_cancel _ _
    have hy : r.y0 + r.ystep * |r.dy| = r.y1 := by
      subst hr
      exact (congrArg _ (ystepOf_mul_abs _ _)).trans (add_sub_cancel _ _)
    rwa [LineRegs.point_rounded, LineRegs.secondarySteps_dx flat, Int.toNat_of_nonneg hdx, hx, hy] at hlast

/-- The attempt at index `k` is the point at distance `k`. -/
theorem eq_point_of_lineAttempts_getElem? {r : LineRegs} (hr : LineRegs.setup x0 y0 x1 y1 Colour.zero = r) {k : Nat}
    {p : Int × Int} (h : (lineAttempts x0 y0 x1 y1)[k]? = some p) : p = (r.rounded k).point := by
  rw [lineAttempts_eq_map_rounded x0 y0 x1 y1 Colour.zero, hr] at h
  obtain ⟨_, rfl⟩ := List.getElem?_eq_some_iff.1 h
  rw [List.getElem_map, List.getElem_range]

/-- The coordinate on the dominant axis rises by one from attempt to attempt (R173, R177). -/
theorem lineAttempts_map_dominant {r : LineRegs} (hr : LineRegs.setup x0 y0 x1 y1 Colour.zero = r)
    {f : Int × Int → Int} (hf : ∀ x y, f (r.screen x y) = x) :
    (lineAttempts x0 y0 x1 y1).map f = (List.range (r.dx + 1).toNat).map fun t : Nat => r.x0 + t := by
  rw [lineAttempts_eq_map_rounded x0 y0 x1 y1 Colour.zero, hr, List.map_map]
  subst hr
  exact List.map_congr_left fun t _ => hf _ _

theorem lineAttempts_pairwise_dominant {r : LineRegs} (hr : LineRegs.setup x0 y0 x1 y1 Colour.zero = r)
    {f : Int × Int → Int} (hf : ∀ x y, f (r.screen x y) = x) :
    (lineAttempts x0 y0 x1 y1).Pairwise fun p q => f p < f q := by
  rw [← List.pairwise_map (f := f), lineAttempts_map_dominant hr hf, List.pairwise_map]
  exact List.pairwise_lt_range.imp fun htu => by omega

/-- Both given endpoints are attempted (R178). -/
theorem endpoints_mem_lineAttempts (x0 y0 x1 y1 : Int) :
    (x0, y0) ∈ lineAttempts x0 y0 x1 y1 ∧ (x1, y1) ∈ lineAttempts x0 y0 x1 y1 := by
  obtain ⟨hfirst, hlast⟩ := screen_ends_mem_lineAttempts rfl
  obtain ⟨h0, h1⟩ | ⟨h1, h0⟩ := LineRegs.setup_screen (x0 := x0) (y0 := y0) (x1 := x1) (y1 := y1) (c := Colour.zero) rfl
  · exact ⟨h0 ▸ hfirst, h1 ▸ hlast⟩
  · exact ⟨h0 ▸ hlast, h1 ▸ hfirst⟩

end Attempts

/-- Settles O30: the walk's registers are those of the closed form, whose error lies above `-dx` and not above `dx`. -/
theorem attemptsAreTheRoundedLine : Obligations.AttemptsAreTheRoundedLine := by
  intro x0 y0 x1 y1
  obtain ⟨hfirst, hlast⟩ := endpoints_mem_lineAttempts x0 y0 x1 y1
  refine ⟨lineAttempts_eq_segmentPoints x0 y0 x1 y1, hfirst, hlast, fun r hr => ?_⟩
  have flat : |r.dy| ≤ r.dx := hr ▸ LineRegs.setup_flat x0 y0 x1 y1 Colour.zero
  refine ⟨LineRegs.secondarySteps_zero flat, LineRegs.secondarySteps_dx flat, fun hd => ?_, fun t hd _ => ?_⟩
  · exact abs_nonpos_iff.1 (hd ▸ flat)
  · obtain ⟨hlower, hupper⟩ := LineRegs.errorAt_bounds hd t
    rw [LineRegs.errorAt, Int.mul_assoc, Int.mul_assoc] at hlower hupper
    omega

/-- Settles O31: in either mode the dominant coordinate is that of the first working endpoint and the distance. -/
theorem oneAttemptPerDominantPosition : Obligations.OneAttemptPerDominantPosition := by
  intro x0 y0 x1 y1
  refine ⟨?_, fun hsteep => ?_, fun hsteep => ?_⟩
  · rw [lineAttempts_length]
    cases hsteep : isSteep x0 y0 x1 y1 with
    | false =>
      obtain ⟨-, hdx, hle⟩ := LineRegs.setup_of_not_steep hsteep Colour.zero
      rw [hdx, max_eq_left hle]
    | true =>
      obtain ⟨-, hdx, hle⟩ := LineRegs.setup_of_steep hsteep Colour.zero
      rw [hdx, max_eq_right hle]
  · obtain ⟨hx0, hdx, -⟩ := LineRegs.setup_of_not_steep hsteep Colour.zero
    rw [lineAttempts_map_dominant rfl fun x y => congrArg Prod.fst (LineRegs.screen_of_not_steep hsteep x y), hx0, hdx,
      bind_pure_comp, List.map_eq_map, List.map_map]
    rfl
  · obtain ⟨hx0, hdx, -⟩ := LineRegs.setup_of_steep hsteep Colour.zero
    rw [lineAttempts_map_dominant rfl fun x y => congrArg Prod.snd (LineRegs.screen_of_steep hsteep x y), hx0, hdx,
      bind_pure_comp, List.map_eq_map, List.map_map]
    rfl

/-- Settles O32: the endpoints are put in order before the walk begins, and the dominant coordinate rises along it. -/
theorem endpointOrderDoesNotMatter : Obligations.EndpointOrderDoesNotMatter := by
  intro s x0 y0 x1 y1 c
  have hsetup := LineRegs.setup_comm x0 y0 x1 y1
  refine ⟨hsetup c, ?_, ?_, ?_⟩
  · rw [lineAttempts, lineAttempts, hsetup]
  · cases hsteep : isSteep x0 y0 x1 y1 with
    | false =>
      exact lineAttempts_pairwise_dominant rfl fun x y => congrArg Prod.fst (LineRegs.screen_of_not_steep hsteep x y)
    | true => exact lineAttempts_pairwise_dominant rfl fun x y => congrArg Prod.snd (LineRegs.screen_of_steep hsteep x y)
  · change execDrawLine x0 y0 x1 y1 c s = execDrawLine x1 y1 x0 y0 c s
    rw [execDrawLine, execDrawLine, hsetup]

/-- Settles O33: the dominant coordinate is the distance, and the secondary one steps by `ystep` or not at all. -/
theorem segmentHasNoGaps : Obligations.SegmentHasNoGaps := by
  intro x0 y0 x1 y1 k p q hp hq
  obtain rfl := eq_point_of_lineAttempts_getElem? rfl hp
  obtain rfl := eq_point_of_lineAttempts_getElem? rfl hq
  obtain ⟨hx, hy⟩ := LineRegs.rounded_succ (LineRegs.setup_flat x0 y0 x1 y1 Colour.zero) (ystepOf_eq _ _) k
  cases hsteep : isSteep x0 y0 x1 y1 with
  | false =>
    rw [LineRegs.point_rounded, LineRegs.point_rounded, LineRegs.screen_of_not_steep hsteep,
      LineRegs.screen_of_not_steep hsteep]
    exact ⟨hx, hy⟩
  | true =>
    rw [LineRegs.point_rounded, LineRegs.point_rounded, LineRegs.screen_of_steep hsteep, LineRegs.screen_of_steep hsteep]
    exact ⟨hx, hy⟩

/-- Settles O36: each example is small enough to be run. -/
theorem documentLinesAreReproduced : Obligations.DocumentLinesAreReproduced := by
  refine ⟨?_, ?_, ?_⟩ <;> decide

end Sys2Proof.Machine
end

section
/-! PROOFS. Family 43_line_rasterizer.md, what `drawLine` leaves in the buffer (R175, R181, R184): the colour at each attempt
in bounds, and every other byte as before. -/

namespace Sys2Proof.Machine

/-! ### One attempt (R175) -/

theorem State.putPixel_outOfBounds {s : State} {p : Int × Int} (h : s.outOfBounds p.1 p.2 = true) (c : Colour) :
    s.putPixel p c = s := by
  rw [State.putPixel, if_pos h]

/-- A point passes the bounds test exactly where it is a pixel of the buffer (R54). -/
theorem State.inBounds_cases (s : State) (p : Int × Int) :
    s.outOfBounds p.1 p.2 = true ∨ ∃ x y : Nat, x < s.width.toNat ∧ y < s.height.toNat ∧ p = (↑x, ↑y) := by
  obtain ⟨x, y⟩ := p
  cases hb : s.outOfBounds x y with
  | true => exact .inl rfl
  | false =>
    obtain ⟨hx, hy, hx', hy'⟩ := State.outOfBounds_eq_false.1 hb
    lift x to Nat using hx
    lift y to Nat using hy
    exact .inr ⟨x, y, by omega, by omega, rfl⟩

/-- After an attempt, in bounds or not, the pixel at its point has the colour, and every other pixel is as before. -/
theorem State.pixel_putPixel_point {s : State} {px py : Nat} (hpx : px < s.width.toNat) (hpy : py < s.height.toNat)
    (p : Int × Int) (c : Colour) :
    (s.putPixel p c).pixel (px + py * s.width.toNat) =
      if ((px : Int), (py : Int)) = p then c else s.pixel (px + py * s.width.toNat) := by
  obtain hb | ⟨x, y, hx, hy, rfl⟩ := s.inBounds_cases p
  · rw [State.putPixel_outOfBounds hb, if_neg]
    rintro rfl
    exact Bool.false_ne_true ((State.outOfBounds_eq_false.2 (by omega)).symm.trans hb)
  · rw [State.pixel_putPixel hx hy hpx]
    exact if_congr (by simp) rfl rfl

/-- No attempt changes a byte outside the buffer. -/
theorem State.byteAt_putPixel_outside {s : State} (p : Int × Int) (c : Colour) {a : Nat} (ha : s.memSize ≤ a) :
    (s.putPixel p c).byteAt a = s.byteAt a := by
  obtain hb | ⟨x, y, hx, hy, rfl⟩ := s.inBounds_cases p
  · rw [State.putPixel_outOfBounds hb]
  · exact State.byteAt_putPixel_ne c (.inr ((State.pixel_inside hx hy).trans ha))

/-! ### The attempts of a line (R184) -/

/-- Two states of which the second has the first's buffer with one colour put at some points, those outside the buffer left
out. -/
structure Painted (ps : List (Int × Int)) (c : Colour) (s t : State) : Prop extends KeepsDimensions s t where
  pixels : ∀ px py : Nat, px < s.width.toNat → py < s.height.toNat →
    t.pixel (px + py * s.width.toNat) =
      if ((px : Int), (py : Int)) ∈ ps then c else s.pixel (px + py * s.width.toNat)
  outside : ∀ a, s.memSize ≤ a → t.byteAt a = s.byteAt a

/-- Attempt after attempt paints all their points: the last one at a point puts the same colour as the ones before. -/
theorem State.foldl_putPixel_painted (ps : List (Int × Int)) (c : Colour) (s : State) :
    Painted ps c s (ps.foldl (fun t p => t.putPixel p c) s) := by
  induction ps generalizing s with
  | nil => exact ⟨⟨rfl, rfl, rfl⟩, fun _ _ _ _ => rfl, fun _ _ => rfl⟩
  | cons p ps ih =>
    obtain ⟨hkeeps, hpixels, houtside⟩ := ih (s.putPixel p c)
    have hput : KeepsDimensions s (s.putPixel p c) := ⟨rfl, rfl, rfl⟩
    refine ⟨hput.trans hkeeps, fun px py hpx hpy => ?_, fun a ha => ?_⟩
    · refine (hpixels px py hpx hpy).trans ?_
      rw [hput.width, State.pixel_putPixel_point hpx hpy]
      by_cases hmem : ((px : Int), (py : Int)) ∈ ps
      · rw [if_pos hmem, if_pos (List.mem_cons_of_mem p hmem)]
      · rw [if_neg hmem]
        exact if_congr (by simp [hmem]) rfl rfl
    · exact (houtside a ha).trans (State.byteAt_putPixel_outside p c ha)

/-- Buffers of the same size with the same pixels and the same bytes outside hold the same bytes (R35). -/
theorem State.byteAt_eq_of_pixels {s t : State}
    (hpixels : ∀ px py : Nat, px < s.width.toNat → py < s.height.toNat →
      t.pixel (px + py * s.width.toNat) = s.pixel (px + py * s.width.toNat))
    (houtside : ∀ a, s.memSize ≤ a → t.byteAt a = s.byteAt a) (a : Nat) : t.byteAt a = s.byteAt a := by
  obtain ⟨y, k, hy, hk, rfl⟩ | ha := s.address_cases a
  · have hx : k / 3 < s.width.toNat := by rw [State.rowBytes] at hk; omega
    have haddress : y * s.rowBytes + k = 3 * (k / 3 + y * s.width.toNat) + k % 3 := by
      rw [State.pixel_address]
      omega
    have hpixel := hpixels (k / 3) y hx hy
    simp only [State.pixel_eq, Colour.mk.injEq] at hpixel
    obtain ⟨hblue, hgreen, hred⟩ := hpixel
    rw [haddress]
    obtain h | h | h : k % 3 = 0 ∨ k % 3 = 1 ∨ k % 3 = 2 := by omega
    · rw [h]; exact hblue
    · rw [h]; exact hgreen
    · rw [h]; exact hred
  · exact houtside a ha

/-- Painting the same points with the same colour again changes no byte. -/
theorem Painted.again {ps : List (Int × Int)} {c : Colour} {s t u : State} (h : Painted ps c s t) (h' : Painted ps c t u)
    (a : Nat) : u.byteAt a = t.byteAt a := by
  refine State.byteAt_eq_of_pixels (fun px py hpx hpy => ?_) h'.outside a
  rw [h'.pixels px py hpx hpy]
  rw [h.width] at hpx ⊢
  rw [h.height] at hpy
  rw [h.pixels px py hpx hpy]
  split <;> rfl

/-! ### `drawLine` (R170, R208) -/

/-- The attempts do not read or write the rasterizer's registers. -/
theorem State.foldl_putPixel_line (ps : List (Int × Int)) (c : Colour) (s : State) (l : LineRegs) :
    ps.foldl (fun t p => t.putPixel p c) { s with line := l } =
      { ps.foldl (fun t p => t.putPixel p c) s with line := l } := by
  induction ps generalizing s with
  | nil => rfl
  | cons p ps ih => exact ih (s.putPixel p c)

/-- With a buffer `drawLine` puts the pixel at each attempt, in order; of the rest only the rasterizer's own registers change
before the epilogue. -/
theorem exec_drawLine_attempts {s : State} (ha : s.alloc = true) (x0 y0 x1 y1 : Int) (c : Colour) :
    ∃ l, exec (.drawLine x0 y0 x1 y1 c) s =
      .next (State.complete { (lineAttempts x0 y0 x1 y1).foldl (fun t p => t.putPixel p c) s with line := l } .ok 0) := by
  have hwalk := exec_drawLine ha (State.lineWalk_eq (LineRegs.setup x0 y0 x1 y1 c).positions
    { s with line := LineRegs.setup x0 y0 x1 y1 c })
  refine ⟨(LineRegs.setup x0 y0 x1 y1 c).after (LineRegs.setup x0 y0 x1 y1 c).positions, hwalk.trans ?_⟩
  rw [State.foldl_putPixel_line, lineAttempts_eq_map_rounded x0 y0 x1 y1 c]
  simp only [LineRegs.after_setup]
  rfl

/-- So it leaves the buffer with the points of the closed form painted (R184). -/
theorem exec_drawLine_painted {s : State} (ha : s.alloc = true) (x0 y0 x1 y1 : Int) (c : Colour) :
    ∃ m l, exec (.drawLine x0 y0 x1 y1 c) s = .next ({ s with mem := m, line := l }.complete .ok 0) ∧
      Painted (segmentPoints x0 y0 x1 y1) c s ({ s with mem := m, line := l }.complete .ok 0) := by
  obtain ⟨l, hexec⟩ := exec_drawLine_attempts ha x0 y0 x1 y1 c
  obtain ⟨m, hfold, -⟩ := State.foldl_putPixel (lineAttempts x0 y0 x1 y1) c s
  have hpainted := State.foldl_putPixel_painted (lineAttempts x0 y0 x1 y1) c s
  rw [hfold] at hexec hpainted
  rw [lineAttempts_eq_segmentPoints] at hpainted
  have hkeeps : KeepsDimensions s { s with mem := m, line := l } := ⟨rfl, rfl, rfl⟩
  exact ⟨m, l, hexec, { hkeeps.complete .ok 0 with pixels := hpainted.pixels, outside := hpainted.outside }⟩

/-- Settles O29: the attempts paint their points, and painted again they are as they were. -/
theorem drawLinePaintsTheSegment : Obligations.DrawLinePaintsTheSegment := by
  intro s x0 y0 x1 y1 c ha
  obtain ⟨m, l, hexec, hpainted⟩ := exec_drawLine_painted ha x0 y0 x1 y1 c
  obtain ⟨_, _, hagain, hpainted'⟩ := exec_drawLine_painted (hpainted.alloc.trans ha) x0 y0 x1 y1 c
  have hstatus : { s with mem := m, line := l }.status = s.status := rfl
  refine ⟨_, hexec, State.complete_ended_of_status hstatus .ok 0, hpainted.toKeepsDimensions, ⟨rfl, rfl⟩, rfl, rfl, rfl,
    fun px py hpx hpy => ?_, hpainted.outside, _, hagain, hpainted.again hpainted'⟩
  have hpixel := hpainted.pixels px py hpx hpy
  exact ⟨fun hon => hpixel.trans (if_pos hon), fun hoff => hpixel.trans (if_neg hoff)⟩

/-! ### A zero-length segment (R181) -/

theorem isSteep_self (x y : Int) : isSteep x y x y = false := by simp [isSteep]

/-- The one attempt is the first working endpoint. -/
theorem lineAttempts_self (x y : Int) : lineAttempts x y x y = [(x, y)] := by
  obtain ⟨-, hdx, -⟩ := LineRegs.setup_of_not_steep (isSteep_self x y) Colour.zero
  rw [sub_self, abs_zero] at hdx
  have hlength := lineAttempts_length x y x y
  rw [hdx] at hlength
  obtain ⟨p, hp⟩ := List.length_eq_one_iff.1 (Int.ofNat_inj.1 hlength)
  have hmem := (endpoints_mem_lineAttempts x y x y).1
  rw [hp, List.mem_singleton] at hmem
  rw [hp, hmem]

/-- Settles O34: the working endpoints are the point, and the one attempt there is that of `setPixel`. -/
theorem zeroLengthSegmentIsOnePixel : Obligations.ZeroLengthSegmentIsOnePixel := by
  intro s x y c ha
  obtain ⟨-, hdx, -⟩ := LineRegs.setup_of_not_steep (isSteep_self x y) c
  rw [sub_self, abs_zero] at hdx
  have flat := LineRegs.setup_flat x y x y c
  have hdy : (LineRegs.setup x y x y c).dy = 0 := abs_nonpos_iff.1 (hdx ▸ flat)
  have hadvance : (LineRegs.setup x y x y c).advance.err = 0 := by
    have hafter : (LineRegs.setup x y x y c).advance = (LineRegs.setup x y x y c).rounded 1 :=
      LineRegs.after_setup x y x y c 1
    rw [hafter, LineRegs.rounded, LineRegs.errorAt, hdx, hdy]
    simp
  obtain ⟨l, hexec⟩ := exec_drawLine_attempts ha x y x y c
  rw [lineAttempts_self] at hexec
  refine ⟨lineAttempts_self x y, isSteep_self x y, hdx, hdy, hadvance, _, hexec, fun hout => ?_, fun hin => ?_⟩
  · have hmem : (s.putPixel (x, y) c).mem = s.mem := congrArg State.mem (State.putPixel_outOfBounds hout c)
    exact hmem
  · exact ⟨_, exec_setPixel_inside ha c hin, rfl⟩

end Sys2Proof.Machine
end

section
/-! PROOFS. Family 60_exceptions.md, the answer of every command (R201, R203 to R208): the code and the data that the
epilogue is given, and the next state on the errors that change nothing else. -/

namespace Sys2Proof.Machine

/-! ### What an answer is -/

/-- A command run from `s` has its body in `u` and answers the code and data: the body kept `FATAL` and what the environment
holds, the code is one of those R206 gives the command, `NoBuffer` only without a buffer, and data come from a `getPixel`
that succeeded. -/
structure Answered (i : Instr) (s u : State) (code : Code) (data : BitVec 24) : Prop where
  fatal       : u.fatal = s.fatal
  environment : KeepsEnvironment s u
  code_mem    : code ∈ i.codes
  noBuffer    : code = .noBuffer → s.alloc = false
  getsPixel   : data ≠ 0 → code = .ok ∧ ∃ x y, i = .getPixel x y

/-- The result is the epilogue, with an answer the command can give. -/
def Answers (i : Instr) (s : State) (r : Result) : Prop :=
  ∃ u code data, r = .next (State.complete u code data) ∧ Answered i s u code data

theorem Worked.keepsEnvironment {s u : State} (h : Worked s u) : KeepsEnvironment s u := by
  obtain ⟨_, _, _, _, _, _, rfl⟩ := h
  exact ⟨rfl, rfl⟩

theorem Worked.refl (s : State) : Worked s s := ⟨_, _, _, _, _, _, rfl⟩

/-- A body that ends without data. -/
theorem Worked.answers {i : Instr} {s u : State} {code : Code} (h : Worked s u) (hcode : code ∈ i.codes)
    (hbuffer : code = .noBuffer → s.alloc = false) : Answers i s (.next (u.complete code 0)) :=
  ⟨u, code, 0, rfl, h.fatal, h.keepsEnvironment, hcode, hbuffer, fun hdata => absurd rfl hdata⟩

/-- The end of a stream command: both codes it can have are its own (R206). -/
theorem Flow.All.answers {i : Instr} {s : State} {f : Flow} (hi : i.isStreamCommand = true)
    (h : f.All (Body (i.wf = true) s)) : Answers i s f.finish := by
  have hcodes : Code.ok ∈ i.codes ∧ Code.ioError ∈ i.codes := by
    cases i with
    | encode | write _ => simp [Instr.codes]
    | _ => cases hi
  obtain ⟨u, code, hu, rfl | rfl, hf⟩ := h.finish
  · exact hf ▸ hu.worked.answers hcodes.1 nofun
  · exact hf ▸ hu.worked.answers hcodes.2 nofun

/-- A result holds one response. -/
theorem response_of_complete {r : Result} {u t : State} {code : Code} {data : BitVec 24} {a : Response}
    (h : r = .next (u.complete code data)) (ht : r = .next t) (ha : t.rsp = some a) :
    a = { code := code, data := data } := by
  cases h.symm.trans ht
  exact (Option.some.inj ha).symm

/-- A command whose body kept `FATAL` has ended with the code and data of its epilogue (R208). -/
theorem State.complete_ended_of_fatal {s u : State} (h : u.fatal = s.fatal) (code : Code) (data : BitVec 24) :
    Ended s (u.complete code data) code data :=
  ⟨u.complete_last code data, (u.complete_fatal code data).trans (by rw [h]), rfl, rfl, rfl⟩

/-! ### Every command answers (R206) -/

theorem exec_create_answers (w h : Int) (s : State) : Answers (.create w h) s (exec (.create w h) s) := by
  by_cases hwh : w ≤ 0 ∨ h ≤ 0
  · exact exec_create_invalid hwh s ▸ (Worked.refl s).answers (by simp [Instr.codes]) nofun
  · exact ⟨_, _, _, exec_create_valid hwh s, s.allocate_fatal w h, ⟨rfl, rfl⟩, by simp [Instr.codes], nofun,
      fun hdata => absurd rfl hdata⟩

/-- Without a buffer each of the six other commands answers `NoBuffer`, which is one of its codes (R204). -/
theorem exec_noBuffer_answers {i : Instr} (hi : i.isCommand = true) (hc : ∀ w h, i ≠ .create w h) {s : State}
    (ha : s.alloc = false) : Answers i s (exec i s) := by
  have hcode : Code.noBuffer ∈ i.codes := by
    cases i with
    | create w h => exact absurd rfl (hc w h)
    | rawPacket _ | runPacket _ | tgaHeader _ | tgaTrailer => cases hi
    | _ => simp [Instr.codes]
  have hworked : Worked s (if i.isStreamCommand then s.openStream else s) := by
    split
    · exact ⟨_, _, _, _, _, _, rfl⟩
    · exact .refl s
  exact exec_noBuffer hc ha ▸ hworked.answers hcode fun _ => ha

/-- Every command answers, from any state and on any operands. -/
theorem exec_command_answers {i : Instr} (hi : i.isCommand = true) (s : State) : Answers i s (exec i s) := by
  by_cases hc : ∃ w h, i = .create w h
  · obtain ⟨w, h, rfl⟩ := hc
    exact exec_create_answers w h s
  push Not at hc
  cases ha : s.alloc with
  | false => exact exec_noBuffer_answers hi hc ha
  | true =>
    cases i with
    | create w h => exact absurd rfl (hc w h)
    | setPixel x y c =>
      cases hb : s.outOfBounds x y with
      | true => exact exec_setPixel_outside ha c hb ▸ (Worked.refl s).answers (by simp [Instr.codes]) nofun
      | false =>
        have hworked : Worked s (s.putPixel (x, y) c) := ⟨_, _, _, _, _, _, rfl⟩
        exact exec_setPixel_inside ha c hb ▸ hworked.answers (by simp [Instr.codes]) nofun
    | getPixel x y =>
      cases hb : s.outOfBounds x y with
      | true => exact exec_getPixel_outside ha hb ▸ (Worked.refl s).answers (by simp [Instr.codes]) nofun
      | false =>
        exact ⟨s, _, _, exec_getPixel_inside ha hb, rfl, ⟨rfl, rfl⟩, by simp [Instr.codes], nofun,
          fun _ => ⟨rfl, x, y, rfl⟩⟩
    | flipVertically =>
      obtain ⟨m, f, hexec, -⟩ := exec_flipVertically_spec ha
      have hworked : Worked s { s with mem := m, flip := f } := ⟨_, _, _, _, _, _, rfl⟩
      exact hexec ▸ hworked.answers (by simp [Instr.codes]) nofun
    | drawLine x0 y0 x1 y1 c =>
      obtain ⟨u, hwalk, hu⟩ := State.lineWalk_body rfl s
      exact exec_drawLine ha hwalk ▸ hu.worked.answers (by simp [Instr.codes]) nofun
    | encode =>
      rw [exec_encode ha]
      exact s.openStream.emitRLE_body.afterOpenStream.answers rfl
    | write r =>
      rw [exec_write ha]
      exact (((s.openStream.emit_body _).thenBody fun t => t.emitPayload_body r).thenBody
        fun t => t.emit_body _).afterOpenStream.answers rfl
    | rawPacket _ | runPacket _ | tgaHeader _ | tgaTrailer => cases hi

/-- A response that a command has driven is one it can answer. -/
theorem exec_command_response {i : Instr} (hi : i.isCommand = true) {s t : State} {a : Response}
    (ht : exec i s = .next t) (ha : t.rsp = some a) : a.code ∈ i.codes ∧ (a.code = .noBuffer → s.alloc = false) := by
  obtain ⟨u, code, data, hexec, hanswer⟩ := exec_command_answers hi s
  cases response_of_complete hexec ht ha
  exact ⟨hanswer.code_mem, hanswer.noBuffer⟩

/-- R205: `IllegalCommand` is no command's code. -/
theorem illegalCommand_notMem_codes (i : Instr) : Code.illegalCommand ∉ i.codes := by
  cases i <;> simp [Instr.codes]

/-! ### The epilogue with a code that is not fatal (R208) -/

theorem State.statusAfter_of_not_fatal {code : Code} (h : code.isFatal = false) (s : State) :
    s.statusAfter code = statusOf s.alloc code.toBits s.fatal := by
  rw [State.statusAfter, h, Bool.or_false]

/-- Without a buffer every instruction but `create` changes what the epilogue writes and, if it is `encode` or `write`,
begins an empty stream (R41, R204). -/
theorem exec_noBuffer_eq {i : Instr} (hi : ∀ w h, i ≠ .create w h) {s : State} (ha : s.alloc = false) :
    exec i s = .next { s with
      status := statusOf false 4 s.fatal
      phase := .idle
      todo := []
      rsp := some { code := .noBuffer, data := 0 }
      stream := if i.isStreamCommand then [] else s.stream } := by
  rw [exec_noBuffer hi ha, State.complete, State.statusAfter_of_not_fatal rfl]
  split <;> simp only [State.openStream_alloc, State.openStream_fatal, ha] <;> rfl

/-- An `OutOfBounds` changes what the epilogue writes only (R203). -/
theorem State.complete_outOfBounds {s : State} (ha : s.alloc = true) :
    s.complete .outOfBounds 0 = { s with
      status := statusOf true 2 s.fatal
      phase := .idle
      todo := []
      rsp := some { code := .outOfBounds, data := 0 } } := by
  rw [State.complete, State.statusAfter_of_not_fatal rfl, ha]
  rfl

/-- A coordinate is outside exactly when it is negative or not below its dimension (R54). -/
theorem State.outOfBounds_eq_true {s : State} {x y : Int} :
    s.outOfBounds x y = true ↔ x < 0 ∨ y < 0 ∨ x ≥ s.width.toNat ∨ y ≥ s.height.toNat := by
  simp [State.outOfBounds, or_assoc]

/-! ### The statements -/

/-- Settles O9: an illegal opcode is answered by the epilogue alone; a legal one is decoded to a command, none of whose codes
is `IllegalCommand`. -/
theorem illegalOpcodeIsAnswered : Obligations.IllegalOpcodeIsAnswered := by
  intro s w failAt rest hp hinputs
  rw [← opField_toNat]
  refine ⟨fun hop => ?_, fun hop t a ht ha hcode => ?_⟩
  · rw [step_illegal hp hinputs (decodeCommand_illegal hop), State.complete, State.statusAfter_of_not_fatal rfl]
    rfl
  · obtain ⟨i, hd⟩ := (decodeCommand_ok_iff w).2 hop
    rw [step_command hp hinputs hd] at ht
    obtain ⟨hmem, -⟩ := exec_command_response (decodeCommand_isCommand hd) ht ha
    exact illegalCommand_notMem_codes i (hcode ▸ hmem)

/-- Settles O10: a word that decodes is answered as its command answers, any other by the epilogue with `IllegalCommand`. -/
theorem everyCommandEndsInTheEpilogue : Obligations.EveryCommandEndsInTheEpilogue := by
  intro s w failAt rest hp hinputs
  cases hd : decodeCommand w with
  | ok i =>
    obtain ⟨u, code, data, hexec, hanswer⟩ := exec_command_answers (decodeCommand_isCommand hd) (s.accept failAt rest)
    have hfatal : u.fatal = s.fatal := hanswer.fatal
    refine ⟨_, code, data, (step_command hp hinputs hd).trans hexec,
      State.complete_ended_of_fatal hfatal code data, hanswer.environment.inputs, hanswer.environment.sink,
      fun hdata => ?_, ?_, nofun⟩
    · obtain ⟨hok, x, y, rfl⟩ := hanswer.getsPixel hdata
      exact ⟨hok, x, y, rfl⟩
    · rintro _ ⟨⟩
      exact hanswer.code_mem
  | error r =>
    have hfatal : (s.accept failAt rest).fatal = s.fatal := rfl
    exact ⟨_, _, _, step_illegal hp hinputs hd, State.complete_ended_of_fatal hfatal .illegalCommand 0, rfl, rfl,
      fun hdata => absurd rfl hdata, nofun, fun _ _ => rfl⟩

/-- Settles O11: the check for a buffer comes first, and no command answers `NoBuffer` after it. -/
theorem noBufferIsAnswered : Obligations.NoBufferIsAnswered := by
  refine fun i s hi hc => ⟨exec_noBuffer_eq hc, fun ha t a ht hrsp hcode => ?_⟩
  obtain ⟨-, hbuffer⟩ := exec_command_response hi ht hrsp
  exact absurd (ha.symm.trans (hbuffer hcode)) (by decide)

/-- Settles O52: without a buffer an element is answered as a command is; it begins no stream. -/
theorem elementWithoutBufferEndsInNoBuffer : Obligations.ElementWithoutBufferEndsInNoBuffer := by
  intro e s ha
  rw [exec_noBuffer_eq (by cases e <;> nofun) ha]
  cases e <;> rfl

/-- Settles O22: the dimensions are tested first, and a `create` that passes the test answers `OK`. -/
theorem createRejectsNonPositiveDimensions : Obligations.CreateRejectsNonPositiveDimensions := by
  refine fun s w h => ⟨fun hwh => ?_, fun hwh t a ht ha => ?_⟩
  · rw [exec_create_invalid hwh, State.complete, State.statusAfter]
    simp only [Code.isFatal, Bool.or_true]
    rfl
  · cases response_of_complete (exec_create_valid (by omega) s) ht ha
    rfl

/-- Settles O24: with a buffer the two commands answer by the bounds test, and `drawLine` clips (R175), `OutOfBounds` being
none of its codes. -/
theorem outOfBoundsIsAnswered : Obligations.OutOfBoundsIsAnswered := by
  refine fun s x y c => ⟨fun i ha hi => ⟨fun hout => ?_, fun hin t a ht hrsp => ?_⟩, fun x1 y1 t a ht hrsp hcode => ?_⟩
  · have hb := State.outOfBounds_eq_true.2 hout
    rw [← State.complete_outOfBounds ha]
    obtain rfl | rfl := hi
    · exact exec_setPixel_outside ha c hb
    · exact exec_getPixel_outside ha hb
  · have hb := State.outOfBounds_eq_false.2 hin
    obtain rfl | rfl := hi
    · cases response_of_complete (exec_setPixel_inside ha c hb) ht hrsp
      rfl
    · cases response_of_complete (exec_getPixel_inside ha hb) ht hrsp
      rfl
  · obtain ⟨hmem, -⟩ := exec_command_response rfl ht hrsp
    rw [hcode] at hmem
    simp [Instr.codes] at hmem

end Sys2Proof.Machine
end

section
/-! PROOFS. Family 60_exceptions.md, a refused byte (R202): what the sink leaves of the stream of `encode` and `write`. -/

namespace Sys2Proof.Machine

/-- The bytes that a stream command offers, as long as the sink accepts them (R86). -/
def State.offered (s : State) : Instr → List Byte
  | .write r => s.file r
  | _ => rleOf s.pixels

/-- With a buffer, a stream command is the emission of its stream, begun empty, and its end (R41, R120, R150). -/
theorem exec_streamCommand_emits {i : Instr} (hi : i.isStreamCommand = true) {s : State} (ha : s.alloc = true) :
    ∃ f : Flow, f.Emits s.openStream (s.offered i) ∧ exec i s = f.finish := by
  cases i with
  | encode => exact ⟨_, s.openStream.emitRLE_emits, exec_encode ha⟩
  | write r => exact ⟨_, s.openStream.emitFile_emits r, exec_write ha r⟩
  | _ => cases hi

/-- A stream that is begun empty ends at the refused byte, if it has that many bytes, and else whole (R40, R202). -/
theorem Flow.Emits.finish_refusing {f : Flow} {s : State} {bs : List Byte} {k : Nat} (h : f.Emits s.openStream bs)
    (hsink : s.sinkFailAt = some k) :
    ∃ e, f.finish = if k < bs.length then .next (State.complete { s with enc := e, stream := bs.take k } .ioError 0)
      else .next (State.complete { s with enc := e, stream := bs } .ok 0) := by
  obtain ⟨e, rfl⟩ := h
  refine ⟨e, ?_⟩
  rw [State.emit_eq]
  simp only [State.openStream_sinkFailAt, State.openStream_stream, hsink, List.length_nil, Nat.zero_le, true_and,
    Nat.zero_add, Nat.sub_zero, List.nil_append]
  split <;> rfl

/-- Settles O42: the command offers the same bytes whatever the sink answers; a sink that refuses none takes them all, and one
that refuses byte `k` those before it. -/
theorem refusedByteEndsInIoError : Obligations.RefusedByteEndsInIoError := by
  intro i s k hi ha hsink
  obtain ⟨f, hf, hexec⟩ := exec_streamCommand_emits hi ha
  obtain ⟨g, hg, hexec'⟩ := exec_streamCommand_emits (s := { s with sinkFailAt := none }) hi ha
  obtain ⟨e, he⟩ := hf.finish_refusing hsink
  obtain ⟨e', he'⟩ := hg.finish_accepting rfl
  have hoffered : State.offered { s with sinkFailAt := none } i = s.offered i := by cases i <;> rfl
  rw [hoffered] at he'
  have hended {u : State} {code : Code} (h : u.status = s.status) := State.complete_ended_of_status h code 0
  by_cases hk : k < (s.offered i).length
  · rw [if_pos hk] at he
    refine ⟨_, _, hexec.trans he, hexec'.trans he', rfl, rfl, rfl, fun _ => ⟨hended rfl, ?_, rfl⟩,
      fun hle => absurd hk (Nat.not_lt.2 hle)⟩
    rw [State.complete_fatal, Code.isFatal, Bool.or_true]
  · rw [if_neg hk] at he
    exact ⟨_, _, hexec.trans he, hexec'.trans he', rfl, rfl, rfl, fun hlt => absurd hlt hk, fun _ => ⟨hended rfl, rfl⟩⟩

end Sys2Proof.Machine
end

section
/-! PROOFS. Family 70_reset_and_hazards.md, no input (R241, R242): the idle core that waits. -/

namespace Sys2Proof.Machine

/-- Settles O6: the step finds nothing presented and answers with the state itself. -/
theorem idleCoreStaysUnchanged : Obligations.IdleCoreStaysUnchanged :=
  fun _ hp hi => step_nothingPresented hp hi

end Sys2Proof.Machine
end
